-- ==== Sys2Proof/Word.lean ====
section
/-! DEFINITION. The word types of the block (spec/00_scope.md R5, R9; 30_encoding.md R60, R61). -/

namespace Sys2Proof

/-- One byte: a payload element, a buffer byte, a digest byte, a status code. -/
abbrev Byte := BitVec 8

/-- One lane of the permutation state: an unsigned 64-bit word (R5). -/
abbrev Lane := BitVec 64

/-- The command word (R60, R61). -/
abbrev Word := BitVec 32

/-- The VBITS field, bits 25:16 of a command word: an output width in bits, 0 to 1023 (R62). -/
abbrev VBits := BitVec 10

/-- The REGNUM field, bits 15:8 of a READ_REG word (R62). -/
abbrev RegNum := BitVec 8

/-- A text character code: an unsigned integer, bounded by `CHAR_WIDTH` where a payload is checked (R64). -/
abbrev CharCode := Nat

/-- The 25 lanes `S[0..24]` (R12, R20). -/
abbrev Lanes := Vector Lane 25

/-- The input buffer `BUF[0..143]` (R25). -/
abbrev Buffer := Vector Byte 144

end Sys2Proof
end

