-- ==== Sys2Proof/Machine/Engine.lean ====
section
/-! DEFINITION. The permutation engine, Keccak-f[1600] (spec/40_permutation_engine.md R100 to R110;
00_scope.md R10 to R12). -/

namespace Sys2Proof.Machine

/-- The state of 25 zero lanes. -/
def zeroLanes : Lanes := Vector.replicate 25 0#64

/-- `S[i]`; the engine never asks for an index above 24. -/
def laneAt (S : Lanes) (i : Nat) : Lane := S[i]?.getD 0#64

/-- `rotl(x, n)`, n in [0,63] (R10): the formula, and `x` for n = 0. -/
def rotl (x : Lane) (n : Nat) : Lane :=
  if n = 0 then x else (x <<< n) ||| (x >>> (64 - n))

/-! ## Tables (R103, R106, R108), general knowledge in the spec itself (notes/assumptions/14.md) -/

/-- The rotation offset of the lane at index i (R103). -/
def rotTable : List Nat :=
  [0, 1, 62, 28, 27,
   36, 44, 6, 55, 20,
   3, 10, 43, 25, 39,
   41, 45, 15, 21, 8,
   18, 2, 61, 56, 14]

/-- The index the lane at index i moves to (R103). -/
def destTable : List Nat :=
  [0, 10, 20, 5, 15,
   16, 1, 11, 21, 6,
   7, 17, 2, 12, 22,
   23, 8, 18, 3, 13,
   14, 24, 9, 19, 4]

/-- The round constants (R106). -/
def rcTable : List Lane :=
  [0x0000000000000001#64, 0x0000000000008082#64, 0x800000000000808A#64, 0x8000000080008000#64,
   0x000000000000808B#64, 0x0000000080000001#64, 0x8000000080008081#64, 0x8000000000008009#64,
   0x000000000000008A#64, 0x0000000000000088#64, 0x0000000080008009#64, 0x000000008000000A#64,
   0x000000008000808B#64, 0x800000000000008B#64, 0x8000000000008089#64, 0x8000000000008003#64,
   0x8000000000008002#64, 0x8000000000000080#64, 0x000000000000800A#64, 0x800000008000000A#64,
   0x8000000080008081#64, 0x8000000000008080#64, 0x0000000080000001#64, 0x8000000080008008#64]

/-- `PILN` (R108). -/
def pilnTable : List Nat :=
  [10, 7, 11, 17, 18, 3, 5, 16, 8, 21, 24, 4, 15, 23, 19, 13, 12, 2, 20, 14, 22, 9, 6, 1]

/-- `ROTC` (R108). -/
def rotcTable : List Nat :=
  [1, 3, 6, 10, 15, 21, 28, 36, 45, 55, 2, 14, 27, 41, 56, 8, 25, 43, 62, 18, 39, 61, 20, 44]

def rot (i : Nat) : Nat := rotTable[i]?.getD 0
def dest (i : Nat) : Nat := destTable[i]?.getD 0
def roundConstant (r : Nat) : Lane := rcTable[r]?.getD 0#64

/-! ## The steps of a round -/

/-- `C[x]`, the parity of column x (R101). -/
def columnParity (S : Lanes) (x : Nat) : Lane :=
  laneAt S x ^^^ laneAt S (x + 5) ^^^ laneAt S (x + 10) ^^^ laneAt S (x + 15) ^^^ laneAt S (x + 20)

/-- `D` of column x (R101). -/
def thetaTerm (S : Lanes) (x : Nat) : Lane :=
  columnParity S ((x + 4) % 5) ^^^ rotl (columnParity S ((x + 1) % 5)) 1

/-- THETA (R101): every column parity is taken before any lane is written. -/
def theta (S : Lanes) : Lanes :=
  Vector.ofFn fun i => laneAt S i ^^^ thetaTerm S (i % 5)

/-- RHO+PI (R102): lane i of the snapshot, rotated by `ROT[i]`, goes to `DEST[i]`. -/
def rhoPi (S : Lanes) : Lanes :=
  (List.range 25).foldl (fun T i => T.setIfInBounds (dest i) (rotl (laneAt S i) (rot i))) S

/-- One step of the traversal of R108 on the lanes and the carried value `last`. -/
def traversalStep (st : Lanes × Lane) (p : Nat × Nat) : Lanes × Lane :=
  (st.1.setIfInBounds p.1 (rotl st.2 p.2), laneAt st.1 p.1)

/-- RHO+PI in traversal form (R108); the engine uses `rhoPi`. -/
def rhoPiTraversal (S : Lanes) : Lanes :=
  ((pilnTable.zip rotcTable).foldl traversalStep (S, laneAt S 1)).1

/-- CHI (R104): every term reads the row as it was. -/
def chi (S : Lanes) : Lanes :=
  Vector.ofFn fun i =>
    let a := fun x => laneAt S (5 * (i / 5) + x % 5)
    a (i % 5) ^^^ (~~~ a (i % 5 + 1) &&& a (i % 5 + 2))

/-- IOTA (R105). -/
def iota (r : Nat) (S : Lanes) : Lanes :=
  S.setIfInBounds 0 (laneAt S 0 ^^^ roundConstant r)

/-- ROUND r (R107). -/
def keccakRound (S : Lanes) (r : Nat) : Lanes := iota r (chi (rhoPi (theta S)))

/-- PERMUTE (R100): 24 rounds. -/
def permute (S : Lanes) : Lanes := (List.range 24).foldl keccakRound S

/-! ## How R103 and R106 say their tables can be checked -/

/-- One step of R103's walk over `(x, y)`. -/
def walkStep (p : Nat × Nat) : Nat × Nat := (p.2, (2 * p.1 + 3 * p.2) % 5)

/-- The walk's position before step t, from `(1, 0)` (R103). -/
def walkAt : Nat → Nat × Nat
  | 0 => (1, 0)
  | t + 1 => walkStep (walkAt t)

/-- One step of the LFSR of R106, polynomial `x^8 + x^6 + x^5 + x^4 + 1`; the register's bit 0 is the output. -/
def lfsrStep (s : BitVec 8) : BitVec 8 :=
  if s.getLsbD 7 then (s <<< 1) ^^^ 0x71#8 else s <<< 1

/-- The LFSR's register after t steps from 1. -/
def lfsrAt : Nat → BitVec 8
  | 0 => 1#8
  | t + 1 => lfsrStep (lfsrAt t)

/-- `rc(t)` of R106. -/
def lfsrBit (t : Nat) : Bool := (lfsrAt t).getLsbD 0

end Sys2Proof.Machine
end

