-- ==== Sys2Proof/Config.lean ====
section
/-! DEFINITION. The two parameters the spec leaves OPEN and fixes when a block is instantiated
(spec/00_scope.md R8; 92_eei_decisions.md D8, D15; 70_reset_and_hazards.md R240). -/

namespace Sys2Proof

/-- `FINALIZE_MODE` (R8, D8). -/
inductive FinalizeMode where
  /-- FINALIZE absorbs into the lanes and leaves the instance SPENT. -/
  | oneShot
  /-- FINALIZE works on a copy and leaves the stream as it was. -/
  | resumable
deriving DecidableEq, Repr

/-- The parameters of one block. No command and no reset changes them (R240). -/
structure Config where
  finalizeMode : FinalizeMode
  /-- `CHAR_WIDTH`: bits of a text character code. -/
  charWidth : Nat
deriving DecidableEq, Repr

/-- The default value of each parameter (R8): `ONE_SHOT` and 16. -/
def Config.default : Config := { finalizeMode := .oneShot, charWidth := 16 }

end Sys2Proof
end

