-- ==== Sys2Proof/Syntax.lean ====
section
/-! DEFINITION. Commands as the host sends them, and instructions as the block understands them
(spec/30_encoding.md R60 to R64). -/

namespace Sys2Proof

/-- The payload kinds (R64). -/
inductive PayloadKind where
  | none
  | bytes
  | chars
deriving DecidableEq, Repr

/-- A payload as the transport delivers it, with its type (R60, R64, D5). -/
inductive Payload where
  | empty
  | bytes (data : List Byte)
  | chars (text : List CharCode)
deriving DecidableEq, Repr

/-- A command: the pair `(word, payload)` of R60. -/
structure Command where
  word : Word
  payload : Payload
deriving DecidableEq, Repr

/-- The seven commands of R63, one constructor per row of the opcode table, with their operands (R62)
and the payload they take (R64). -/
inductive Instr where
  /-- CONSTRUCT `VBITS` (R135). -/
  | construct (vbits : VBits)
  /-- RESET (R136). -/
  | reset
  /-- ADD `data` (R137). -/
  | add (data : List Byte)
  /-- FINALIZE (R138). -/
  | finalize
  /-- HASH_BYTES `VBITS`, `data` (R166). -/
  | hashBytes (vbits : VBits) (data : List Byte)
  /-- HASH_TEXT `VBITS`, `ISHEX`, `text` (R167). -/
  | hashText (vbits : VBits) (isHex : Bool) (text : List CharCode)
  /-- READ_REG `REGNUM` (R185). -/
  | readReg (regnum : RegNum)
deriving DecidableEq, Repr

end Sys2Proof
end

