-- ==== Sys2Proof/WellFormed.lean ====
section
/-! DEFINITION. Which terms of `Instr` stand for a command the port can carry. The widths of VBITS, ISHEX
and REGNUM are in the types; the one check left is that a character code fits `CHAR_WIDTH` bits
(spec/30_encoding.md R64). -/

namespace Sys2Proof

/-- A character code is an unsigned integer of `charWidth` bits (R64). -/
def CharCode.fits (charWidth : Nat) (c : CharCode) : Bool := decide (c < 2 ^ charWidth)

/-- The instruction can be sent to a block whose `CHAR_WIDTH` is `charWidth`. -/
def Instr.wf (charWidth : Nat) : Instr → Bool
  | .construct _ => true
  | .reset => true
  | .add _ => true
  | .finalize => true
  | .hashBytes _ _ => true
  | .hashText _ _ text => text.all (CharCode.fits charWidth)
  | .readReg _ => true

end Sys2Proof
end

