-- ==== Sys2Proof/Decode.lean ====
section
/-! DEFINITION. The command decoder, total on every word and payload, rejecting by name
(spec/30_encoding.md R61 to R66), and after it the encoder, written from the syntax table of R68. -/

namespace Sys2Proof

/-! ## The opcode map (R63) -/

/-- The seven opcodes. -/
inductive Opcode where
  | construct | reset | add | finalize | hashBytes | hashText | readReg
deriving DecidableEq, Repr

/-- The four command word formats (R61). -/
inductive Format where
  | n | v | t | r
deriving DecidableEq, Repr

/-- OP is `word[7:0]` (R63). -/
def opField (w : Word) : BitVec 8 := w.extractLsb' 0 8

/-- VBITS is `word[25:16]` (R62). -/
def vbitsField (w : Word) : VBits := w.extractLsb' 16 10

/-- ISHEX is `word[8]` (R62). -/
def isHexField (w : Word) : Bool := w.getLsbD 8

/-- REGNUM is `word[15:8]` (R62). -/
def regnumField (w : Word) : RegNum := w.extractLsb' 8 8

/-- The opcode a value of OP is assigned to, if any (R63, R66). -/
def opcodeOf (op : BitVec 8) : Option Opcode :=
  if op = 0x01#8 then some .construct
  else if op = 0x02#8 then some .reset
  else if op = 0x03#8 then some .add
  else if op = 0x04#8 then some .finalize
  else if op = 0x10#8 then some .hashBytes
  else if op = 0x11#8 then some .hashText
  else if op = 0x20#8 then some .readReg
  else none

/-- The format column of R63. -/
def Opcode.format : Opcode → Format
  | .construct => .v
  | .reset => .n
  | .add => .n
  | .finalize => .n
  | .hashBytes => .v
  | .hashText => .t
  | .readReg => .r

/-- The payload column of R63. -/
def Opcode.payloadKind : Opcode → PayloadKind
  | .construct => .none
  | .reset => .none
  | .add => .bytes
  | .finalize => .none
  | .hashBytes => .bytes
  | .hashText => .chars
  | .readReg => .none

/-- The bits of a word that must be 0, by format (R61, R65). -/
def Format.reservedMask : Format → Word
  | .n => 0xFFFFFF00#32
  | .v => 0xFC00FF00#32
  | .t => 0xFC00FE00#32
  | .r => 0xFFFF0000#32

/-! ## Payloads (R64) -/

/-- The payload has no element. An empty payload is of every kind (R64, D29). -/
def Payload.isEmpty : Payload → Bool
  | .empty => true
  | .bytes data => data.isEmpty
  | .chars text => text.isEmpty

/-- A non-empty payload is of the given kind on a block whose `CHAR_WIDTH` is `charWidth` (R64). That a code too wide
is of no kind is DEDUCED (notes/assumptions/8.md). -/
def Payload.ofKind (charWidth : Nat) : PayloadKind → Payload → Bool
  | .bytes, .bytes _ => true
  | .chars, .chars text => text.all (CharCode.fits charWidth)
  | _, _ => false

/-- The payload's bytes, for a command of kind BYTES. -/
def Payload.byteList : Payload → List Byte
  | .empty => []
  | .bytes data => data
  | .chars _ => []

/-- The payload's character codes, for a command of kind CHARS. -/
def Payload.charList : Payload → List CharCode
  | .empty => []
  | .bytes _ => []
  | .chars text => text

/-! ## Decoding (R65) -/

/-- Why the decoder rejects a command: each is the cause of an ILLEGAL_COMMAND (R65, R206). -/
inductive DecodeError where
  /-- OP is none of the seven opcodes (check 1). -/
  | unassignedOpcode
  /-- A reserved bit of OP's format is set (check 2). -/
  | reservedBitSet
  /-- The payload is not empty and not of OP's kind (check 3). -/
  | wrongPayloadKind
deriving DecidableEq, Repr

/-- The instruction with the fields of `w` and the elements of `p` (R62). -/
def Opcode.build (op : Opcode) (w : Word) (p : Payload) : Instr :=
  match op with
  | .construct => .construct (vbitsField w)
  | .reset => .reset
  | .add => .add p.byteList
  | .finalize => .finalize
  | .hashBytes => .hashBytes (vbitsField w) p.byteList
  | .hashText => .hashText (vbitsField w) (isHexField w) p.charList
  | .readReg => .readReg (regnumField w)

/-- The three decoding checks in the order of R65; the first that fails decides. -/
def decode (charWidth : Nat) (c : Command) : Except DecodeError Instr :=
  match opcodeOf (opField c.word) with
  | none => .error .unassignedOpcode
  | some op =>
    if c.word &&& op.format.reservedMask ≠ 0#32 then .error .reservedBitSet
    else if c.payload.isEmpty || c.payload.ofKind charWidth op.payloadKind then
      .ok (op.build c.word c.payload)
    else .error .wrongPayloadKind

/-- The instruction in the `nbits` low bits of `w`, numbered as spec/opcode_table.json numbers them, with an
empty payload: the command word is one 32-bit value, so it has no byte order (R43; notes/assumptions/10.md). -/
def decodeTableWord (nbits w : Nat) : Option Instr :=
  if nbits ≤ 32 then
    match decode Config.default.charWidth { word := BitVec.ofNat 32 (w % 2 ^ nbits), payload := .empty } with
    | .ok i => some i
    | .error _ => none
  else none

/-! ## Encoding (R68) -/

/-- `v << 16` (R68). -/
def encodeVBits (v : VBits) : Word := v.setWidth 32 <<< 16

/-- `ishex << 8` (R68). -/
def encodeIsHex (isHex : Bool) : Word := (BitVec.ofBool isHex).setWidth 32 <<< 8

/-- `reg << 8` (R68). -/
def encodeRegNum (r : RegNum) : Word := r.setWidth 32 <<< 8

/-- The word and payload of an instruction, row by row of the table of R68. -/
def encode : Instr → Command
  | .construct v => { word := encodeVBits v ||| 0x01#32, payload := .empty }
  | .reset => { word := 0x00000002#32, payload := .empty }
  | .add data => { word := 0x00000003#32, payload := .bytes data }
  | .finalize => { word := 0x00000004#32, payload := .empty }
  | .hashBytes v data => { word := encodeVBits v ||| 0x10#32, payload := .bytes data }
  | .hashText v isHex text =>
    { word := encodeVBits v ||| encodeIsHex isHex ||| 0x11#32, payload := .chars text }
  | .readReg r => { word := encodeRegNum r ||| 0x20#32, payload := .empty }

/-! ## The match and mask table (R63), for checking the decoder against it -/

/-- One row of R63's second table, with the payload kind of its first. -/
structure TableRow where
  opcode : Opcode
  matchWord : Word
  mask : Word
deriving DecidableEq, Repr

/-- R63's match and mask table. -/
def tableRows : List TableRow := [
  { opcode := .construct, matchWord := 0x00000001#32, mask := 0xFC00FFFF#32 },
  { opcode := .reset, matchWord := 0x00000002#32, mask := 0xFFFFFFFF#32 },
  { opcode := .add, matchWord := 0x00000003#32, mask := 0xFFFFFFFF#32 },
  { opcode := .finalize, matchWord := 0x00000004#32, mask := 0xFFFFFFFF#32 },
  { opcode := .hashBytes, matchWord := 0x00000010#32, mask := 0xFC00FFFF#32 },
  { opcode := .hashText, matchWord := 0x00000011#32, mask := 0xFC00FEFF#32 },
  { opcode := .readReg, matchWord := 0x00000020#32, mask := 0xFFFF00FF#32 }]

/-- The opcode a constructor of `Instr` stands for. -/
def Instr.opcode : Instr → Opcode
  | .construct _ => .construct
  | .reset => .reset
  | .add _ => .add
  | .finalize => .finalize
  | .hashBytes _ _ => .hashBytes
  | .hashText _ _ _ => .hashText
  | .readReg _ => .readReg

end Sys2Proof
end

