-- ==== Sys2Proof/Machine/State.lean ====
section
/-! DEFINITION. The machine's state (spec/10_state.md R20 to R36), what the host puts in and gets out
(30_encoding.md R60, R72; 70_reset_and_hazards.md R245, R246), and the state after power-on reset (R35). -/

namespace Sys2Proof.Machine

/-- `PHASE` (R28). -/
inductive Phase where
  | absorbing
  | spent
deriving DecidableEq, Repr

/-- The causes a command can raise (R200). NONE is no cause: it is the FAULT register's 0x00. -/
inductive FaultCode where
  /-- Raised by the decoder, for every word and payload it rejects (R65, R206). -/
  | illegalCommand
  /-- Raised by CONSTRUCT, HASH_BYTES and HASH_TEXT on an illegal width (R201). -/
  | badVariant
  /-- Raised by ADD and FINALIZE while PHASE = SPENT (R202). -/
  | spentInstance
  /-- Raised by HASH_TEXT on a character code above 0xFF (R165). -/
  | textCodeRange
  /-- Raised by READ_REG on an unmapped register number (R185). -/
  | badRegister
  /-- Raised on a state that breaches R36; no reachable state does (R207). -/
  | internalInvariant
deriving DecidableEq, Repr

/-- The `data` part of a response (R72). -/
inductive ResponseData where
  | none
  /-- The ASCII bytes of a hex digest. -/
  | hex (h : List Byte)
  | value (v : BitVec 64)
deriving DecidableEq, Repr

/-- A response `(status, data)` (R72). -/
structure Response where
  status : Byte
  data : ResponseData
deriving DecidableEq, Repr

/-- Where a run stops without a successor. -/
inductive Fault where
  /-- FAULT is not 0x00: the block is halted, accepts no command and returns no response (R204, R205); `code` is
  FAULT. Raised by the step and by every instruction's meaning on such a state. Safe: the machine has no
  successor there either. -/
  | halted (code : Byte)
deriving DecidableEq, Repr

/-- Why the model gives an instruction no meaning. -/
inductive Refusal where
  /-- The instruction has no meaning in this model yet. Raised by an arm of `exec` only. Safe: nothing can be
  proved of a run that needs it. -/
  | notModelled (mnemonic : String)
deriving DecidableEq, Repr

/-- The block and its command port. RATE, DIGEST_BYTES and STATUS have no storage of their own (R23, R24, R29):
they are computed in Ops.lean and Flags.lean. -/
structure State where
  /-- `S[0..24]` (R20). -/
  lanes : Lanes
  /-- `VARIANT`, the output width in bits (R22). Its 10 bits are DEDUCED (notes/assumptions/4.md). -/
  variant : VBits
  /-- `BUF[0..143]`; only the bytes below BUFLEN mean anything (R25). -/
  buf : Buffer
  /-- `BUFLEN`, an 8-bit count (R26). -/
  bufLen : BitVec 8
  /-- `BYTECOUNT`, a 64-bit count (R27). -/
  byteCount : BitVec 64
  /-- `PHASE` (R28). -/
  phase : Phase
  /-- `FAULT`, the code of the first fault, or 0x00 (R30). -/
  fault : Byte
  /-- The host's command index (R21). -/
  cmdIndex : Nat
  /-- The parameters this block was instantiated with (R8, R240). -/
  config : Config
  /-- Input: the commands the host has still to issue, the next one first (R60, R245). DESIGN CHOICE
  (notes/assumptions/1.md). -/
  pending : List Command
  /-- Output: the responses since power-on, the oldest first (R72, R245). DESIGN CHOICE (notes/assumptions/2.md). -/
  responses : List Response
  /-- Input: when present, the host applies power-on reset before any further command and then issues these
  commands (R240, R246). DESIGN CHOICE (notes/assumptions/9.md). -/
  powerOn : Option (List Command)
deriving DecidableEq, Repr

/-- A block with parameters `c` right after power-on reset, whose host will issue `cmds` (R35, R240). BUF is
unspecified there; the zeros are DESIGN CHOICE (notes/assumptions/5.md). -/
def State.afterPowerOn (c : Config) (cmds : List Command) : State where
  lanes := Vector.replicate 25 0#64
  variant := 256#10
  buf := Vector.replicate 144 0#8
  bufLen := 0#8
  byteCount := 0#64
  phase := .absorbing
  fault := 0x00#8
  cmdIndex := 0
  config := c
  pending := cmds
  responses := []
  powerOn := none

/-- The machine right after reset, with the default parameters (R35, R8; notes/assumptions/3.md) and no command to
issue yet. -/
def State.reset : State := State.afterPowerOn Config.default []

end Sys2Proof.Machine
end

