-- ==== Sys2Proof/Machine/Flags.lean ====
section
/-! DEFINITION. The STATUS register and its two flags, the block's only flags (spec/10_state.md R29, R31). -/

namespace Sys2Proof.Machine

/-- `STATUS.SPENT`: 1 when PHASE = SPENT (R29). -/
def State.spentFlag (s : State) : Bool := s.phase == .spent

/-- `STATUS.RESUMABLE`: 1 when FINALIZE_MODE = RESUMABLE (R29). -/
def State.resumableFlag (s : State) : Bool := s.config.finalizeMode == .resumable

/-- STATUS as READ_REG returns it: bit 0 SPENT, bit 1 RESUMABLE, bits 63:2 hardwired 0 (R29). -/
def State.statusWord (s : State) : BitVec 64 :=
  (BitVec.ofBool s.resumableFlag ++ BitVec.ofBool s.spentFlag).setWidth 64

end Sys2Proof.Machine
end

