-- ==== Sys2Proof/Machine/Operands.lean ====
section
/-! DEFINITION. The operand forms: the output width (spec/00_scope.md R6, 41_sponge_driver.md R133), text
(42_digest_formatter.md R164, R165) and the register number (43_diagnostic_read.md R185). -/

namespace Sys2Proof.Machine

/-! ## VBITS -/

/-- `legal(v)` (R133). -/
def legal (v : VBits) : Bool := v == 224#10 || v == 256#10 || v == 384#10 || v == 512#10

/-- `RATE(V) = 200 - 2*(V/8)` bytes (R6, R23). -/
def rateOf (v : VBits) : Nat := 200 - 2 * (v.toNat / 8)

/-- `DIGEST_BYTES(V) = V/8` (R6, R24). -/
def digestBytesOf (v : VBits) : Nat := v.toNat / 8

/-! ## CHARS -/

/-- `text[k] > 0xFF` for some k: the check TEXT_TO_BYTES makes on every code before it uses any (R165). -/
def textOutOfRange (text : List CharCode) : Bool := text.any fun c => decide (0xFF < c)

/-- The byte a character code in range stands for, `text[k][7:0]`. R165 gives the same byte for both values of
ISHEX: raw character codes for 1, the Latin-1 identity for 0 (D28; notes/assumptions/15.md). -/
def charToByte (_isHex : Bool) (c : CharCode) : Byte := BitVec.ofNat 8 c

/-- TEXT_TO_BYTES (R165): `none` stands for the raise of TEXT_CODE_RANGE. -/
def textToBytes (isHex : Bool) (text : List CharCode) : Option (List Byte) :=
  if textOutOfRange text then none else some (text.map (charToByte isHex))

/-! ## REGNUM -/

/-- The registers READ_REG can read (R185). -/
inductive Register where
  | status
  | variant
  | rate
  | bufLen
  | byteCount
  | digestBytes
  | lane (i : Nat)
deriving DecidableEq, Repr

/-- The register map of R185; `none` for a reserved number. -/
def registerOf (n : RegNum) : Option Register :=
  if n = 0x00#8 then some .status
  else if n = 0x01#8 then some .variant
  else if n = 0x02#8 then some .rate
  else if n = 0x03#8 then some .bufLen
  else if n = 0x04#8 then some .byteCount
  else if n = 0x05#8 then some .digestBytes
  else if 0x20 ≤ n.toNat ∧ n.toNat ≤ 0x38 then some (.lane (n.toNat - 0x20))
  else none

end Sys2Proof.Machine
end

