-- ==== Sys2Proof/Machine/Ops.lean ====
section
/-! DEFINITION. The operations the commands share: taking a fault and completing a command
(spec/60_exceptions.md R200 to R207, 30_encoding.md R72), the sponge driver's internal operations
(41_sponge_driver.md R130 to R138) and the digest formatter's (42_digest_formatter.md R160 to R163). -/

namespace Sys2Proof.Machine

/-- What a meaning answers. -/
abbrev Result := Host.Outcome State Fault Refusal

/-! ## Derived registers -/

/-- `RATE` (R23). -/
def State.rate (s : State) : Nat := rateOf s.variant

/-- `DIGEST_BYTES` (R24). -/
def State.digestBytes (s : State) : Nat := digestBytesOf s.variant

/-! ## Responses, faults, and when a command is executed -/

/-- The 8-bit code of a fault (R200). -/
def FaultCode.code : FaultCode → Byte
  | .illegalCommand => 0x01#8
  | .badVariant => 0x02#8
  | .spentInstance => 0x03#8
  | .textCodeRange => 0x04#8
  | .badRegister => 0x05#8
  | .internalInvariant => 0x06#8

/-- `raise Fault(code)` (R204): FAULT keeps an earlier code, the response carries this one, and nothing else is
written. The command index and the command stay where they are (R21). -/
def State.raiseFault (c : FaultCode) (s : State) : State :=
  { s with
    fault := if s.fault = 0x00#8 then c.code else s.fault
    responses := s.responses ++ [{ status := c.code, data := .none }] }

/-- Taking a fault is a step of its own; the block is halted from the next state on. DESIGN CHOICE
(notes/assumptions/6.md). -/
def raise (c : FaultCode) (s : State) : Result := .next (s.raiseFault c)

/-- `respond(OK, data)` (R72): the response goes out, the command is done and the index advances by 1 (R70). -/
def State.complete (d : ResponseData) (s : State) : State :=
  { s with
    cmdIndex := s.cmdIndex + 1
    pending := s.pending.tail
    responses := s.responses ++ [{ status := 0x00#8, data := d }] }

/-- A command that ends well. -/
def respond (d : ResponseData) (s : State) : Result := .next (s.complete d)

/-- The four clauses of R36. -/
def State.invariantHolds (s : State) : Bool :=
  legal s.variant
    && decide (s.bufLen.toNat < s.rate)
    && (s.phase == .absorbing || s.config.finalizeMode == .oneShot)
    && (s.phase == .absorbing || s.bufLen == 0#8)

/-- When a command is executed: never on a halted block (R204, R205), and a breach of R36 is raised rather than
gone on from (R207); its place before the other faults is DESIGN CHOICE (notes/assumptions/7.md). -/
def accept (s : State) (body : State → Result) : Result :=
  if s.fault ≠ 0x00#8 then .fault (.halted s.fault)
  else if s.invariantHolds then body s
  else raise .internalInvariant s

/-! ## Bytes and lanes (R41, R42) -/

/-- Byte k of a block; no rule asks for a byte beyond its end. -/
def byteAt (blk : List Byte) (k : Nat) : Byte := blk[k]?.getD 0#8

/-- `LE64(b0..b7)`: b0 is the least significant byte (R13). -/
def le64 (b0 b1 b2 b3 b4 b5 b6 b7 : Byte) : Lane :=
  b7 ++ b6 ++ b5 ++ b4 ++ b3 ++ b2 ++ b1 ++ b0

/-- The little-endian word of the block's bytes 8i to 8i+7 (R41). -/
def blockLane (blk : List Byte) (i : Nat) : Lane :=
  le64 (byteAt blk (8 * i)) (byteAt blk (8 * i + 1)) (byteAt blk (8 * i + 2)) (byteAt blk (8 * i + 3))
    (byteAt blk (8 * i + 4)) (byteAt blk (8 * i + 5)) (byteAt blk (8 * i + 6)) (byteAt blk (8 * i + 7))

/-! ## The sponge driver -/

/-- The XOR of ABSORB_BLOCK: lanes 0 to RATE/8 - 1 take the block, the capacity lanes stay (R131). -/
def xorBlock (rate : Nat) (S : Lanes) (blk : List Byte) : Lanes :=
  Vector.ofFn fun i => if i.val < rate / 8 then laneAt S i ^^^ blockLane blk i else laneAt S i

/-- ABSORB_BLOCK (R131). -/
def absorbBlock (rate : Nat) (S : Lanes) (blk : List Byte) : Lanes := permute (xorBlock rate S blk)

/-- `v | 0x80` in the last byte of a block of `rate` bytes (R130). -/
def orLastByte (rate : Nat) (p : List Byte) : List Byte := p.set (rate - 1) (byteAt p (rate - 1) ||| 0x80#8)

/-- PAD (R130) of the buffered remainder `rem`: the legacy 0x01 … 0x80 padding. -/
def padBlock (rate : Nat) (rem : List Byte) : List Byte :=
  orLastByte rate (rem ++ 0x01#8 :: List.replicate (rate - rem.length - 1) 0x00#8)

/-- The buffered remainder `BUF[0..BUFLEN-1]` (R25, R34). -/
def State.remainder (s : State) : List Byte := s.buf.toList.take s.bufLen.toNat

/-- The body of AddBody's loop (R137): one byte into BUF, and a full buffer into the lanes. -/
def addByte (s : State) (b : Byte) : State :=
  let buf := s.buf.setIfInBounds s.bufLen.toNat b
  let n := s.bufLen + 1#8
  if n.toNat = s.rate then
    { s with lanes := absorbBlock s.rate s.lanes (buf.toList.take s.rate), buf := buf, bufLen := 0#8 }
  else
    { s with buf := buf, bufLen := n }

/-- AddBody (R137): the bytes in order, then BYTECOUNT modulo 2^64. -/
def addBody (data : List Byte) (s : State) : State :=
  let t := data.foldl addByte s
  { t with byteCount := s.byteCount + BitVec.ofNat 64 data.length }

/-- ResetBody (R136): VARIANT and the bytes of BUF stay. -/
def resetBody (s : State) : State :=
  { s with lanes := zeroLanes, byteCount := 0#64, bufLen := 0#8, phase := .absorbing }

/-! ## The digest formatter -/

/-- EXTRACT (R160): digest byte j is byte `j mod 8` of lane `j div 8`, least significant first (R42). -/
def extractDigest (n : Nat) (T : Lanes) : List Byte :=
  (List.range n).map fun j => (laneAt T (j / 8) >>> (8 * (j % 8))).setWidth 8

/-- The ASCII code of a hex digit, lowercase (R163). -/
def hexDigit (d : BitVec 4) : Byte :=
  if d.toNat < 10 then BitVec.ofNat 8 (0x30 + d.toNat) else BitVec.ofNat 8 (0x61 + (d.toNat - 10))

/-- `hex2(b)`: the high nibble first (R163). -/
def hex2 (b : Byte) : List Byte := [hexDigit (b.extractLsb' 4 4), hexDigit (b.extractLsb' 0 4)]

/-- FORMAT_DIGEST (R162) of the first `n` digest bytes. -/
def formatDigest (n : Nat) (T : Lanes) : List Byte := (extractDigest n T).flatMap hex2

/-- The lanes FINALIZE formats: the padded remainder absorbed (R138). -/
def State.finalLanes (s : State) : Lanes := absorbBlock s.rate s.lanes (padBlock s.rate s.remainder)

/-- The digest FinalizeBody returns, in both modes (R138). -/
def State.digest (s : State) : List Byte := formatDigest s.digestBytes s.finalLanes

/-- What FinalizeBody leaves (R138): in ONE_SHOT mode the final lanes and a spent instance, in RESUMABLE mode
nothing new. -/
def finalizeBody (s : State) : State :=
  match s.config.finalizeMode with
  | .oneShot => { s with lanes := s.finalLanes, bufLen := 0#8, phase := .spent }
  | .resumable => s

/-- FinalizeBody and the response of its digest (R138). -/
def finalizeAndRespond (s : State) : Result := respond (.hex s.digest) (finalizeBody s)

/-- The common body of the two entry points (R166, R167): a fresh instance of width `v`, the bytes, the digest. -/
def hashWith (v : VBits) (data : List Byte) (s : State) : Result :=
  finalizeAndRespond (addBody data (resetBody { s with variant := v }))

/-! ## The register read -/

/-- The value READ_REG returns for a register (R185). -/
def State.readRegister (s : State) : Register → BitVec 64
  | .status => s.statusWord
  | .variant => s.variant.setWidth 64
  | .rate => BitVec.ofNat 64 s.rate
  | .bufLen => s.bufLen.setWidth 64
  | .byteCount => s.byteCount
  | .digestBytes => BitVec.ofNat 64 s.digestBytes
  | .lane i => laneAt s.lanes i

end Sys2Proof.Machine
end

