-- ==== Sys2Proof/Machine/Diagnostic.lean ====
section
/-! DEFINITION. The diagnostic register read READ_REG (spec/43_diagnostic_read.md R185). -/

namespace Sys2Proof.Machine

/-- READ_REG (R185). -/
def execReadReg (regnum : RegNum) (s : State) : Result :=
  accept s fun s =>
    match registerOf regnum with
    | none => raise .badRegister s
    | some r => respond (.value (s.readRegister r)) s

end Sys2Proof.Machine
end

