-- ==== Sys2Proof/Machine/Formatter.lean ====
section
/-! DEFINITION. The digest formatter's entry points HASH_BYTES and HASH_TEXT
(spec/42_digest_formatter.md R166, R167). -/

namespace Sys2Proof.Machine

/-- HASH_BYTES (R166). -/
def execHashBytes (vbits : VBits) (data : List Byte) (s : State) : Result :=
  accept s fun s =>
    if legal vbits then hashWith vbits data s
    else raise .badVariant s

/-- HASH_TEXT (R167): BAD_VARIANT wins over TEXT_CODE_RANGE (R203). -/
def execHashText (vbits : VBits) (isHex : Bool) (text : List CharCode) (s : State) : Result :=
  accept s fun s =>
    if legal vbits then
      match textToBytes isHex text with
      | none => raise .textCodeRange s
      | some data => hashWith vbits data s
    else raise .badVariant s

end Sys2Proof.Machine
end

