-- ==== Sys2Proof/Machine/Sponge.lean ====
section
/-! DEFINITION. The sponge driver's commands CONSTRUCT, RESET, ADD and FINALIZE
(spec/41_sponge_driver.md R135 to R138). -/

namespace Sys2Proof.Machine

/-- CONSTRUCT (R135). -/
def execConstruct (vbits : VBits) (s : State) : Result :=
  accept s fun s =>
    if legal vbits then respond .none (resetBody { s with variant := vbits })
    else raise .badVariant s

/-- RESET (R136). -/
def execReset (s : State) : Result :=
  accept s fun s => respond .none (resetBody s)

/-- ADD (R137). -/
def execAdd (data : List Byte) (s : State) : Result :=
  accept s fun s =>
    match s.phase with
    | .spent => raise .spentInstance s
    | .absorbing => respond .none (addBody data s)

/-- FINALIZE (R138). -/
def execFinalize (s : State) : Result :=
  accept s fun s =>
    match s.phase with
    | .spent => raise .spentInstance s
    | .absorbing => finalizeAndRespond s

end Sys2Proof.Machine
end

