-- ==== Sys2Proof/Machine/Dispatch.lean ====
section
/-! DEFINITION. One arm per constructor of Instr (spec/30_encoding.md R63, R65 step 4). -/

namespace Sys2Proof.Machine

def exec (i : Instr) (s : State) : Host.Outcome State Fault Refusal :=
  match i with
  -- the sponge driver
  | .construct vbits => Sys2Proof.Machine.execConstruct vbits s
  | .reset => Sys2Proof.Machine.execReset s
  | .add data => Sys2Proof.Machine.execAdd data s
  | .finalize => Sys2Proof.Machine.execFinalize s
  -- the digest formatter
  | .hashBytes vbits data => Sys2Proof.Machine.execHashBytes vbits data s
  | .hashText vbits isHex text => Sys2Proof.Machine.execHashText vbits isHex text s
  -- the diagnostic read
  | .readReg regnum => Sys2Proof.Machine.execReadReg regnum s

end Sys2Proof.Machine
end

