-- ==== Sys2Proof/Machine/Port.lean ====
section
/-! DEFINITION. The command port: what one step takes from the host and what it runs
(spec/30_encoding.md R60, R65; 60_exceptions.md R204, R217; 70_reset_and_hazards.md R240, R245, R246). -/

namespace Sys2Proof.Machine

/-- The next command the host issues, if it has one left. -/
def State.nextCommand (s : State) : Option Command := s.pending.head?

/-- Decode a command and execute it (R65). -/
def runCommand (c : Command) (s : State) : Result :=
  match decode s.config.charWidth c with
  | .ok i => exec i s
  | .error _ => accept s (raise .illegalCommand)

/-- Between commands the block is idle and all its state survives (R217). -/
def idle (s : State) : Result := .next s

/-- One step: power-on reset if the host applies it (R240); nothing at all on a halted block (R204); else the
next command, or the idle block when the host has none. -/
def advance (s : State) : Result :=
  match s.powerOn with
  | some cmds => .next (State.afterPowerOn s.config cmds)
  | none =>
    if s.fault ≠ 0x00#8 then .fault (.halted s.fault)
    else
      match s.nextCommand with
      | none => idle s
      | some c => runCommand c s

/-- The host issues `c` next, before the commands it had, and no power-on reset comes first. -/
def State.issue (c : Command) (s : State) : State := { s with pending := c :: s.pending, powerOn := none }

/-- The command whose word has the `nbits` low bits of `w`, zero above, and an empty payload. -/
def tableCommand (nbits w : Nat) : Command :=
  { word := BitVec.ofNat 32 (w % 2 ^ nbits), payload := .empty }

end Sys2Proof.Machine
end

