-- ==== Sys2Proof/Machine/Step.lean ====
section
/-! DEFINITION. The step of the machine, and the placing of one command word where the step takes its next
command from (spec/10_state.md R21: the block fetches no instructions, the host supplies them). -/

namespace Sys2Proof.Machine

/-- One step of the machine. -/
def step (s : State) : Host.Outcome State Fault Refusal := advance s

/-- `s` with the instruction in the `nbits` low bits of `w` as the next command of the host. -/
def State.withFetchWord (s : State) (nbits w : Nat) : State := s.issue (tableCommand nbits w)

end Sys2Proof.Machine
end

