-- ==== Sys2Proof/Machine/Asm.lean ====
section
/-! DEFINITION. The assembler syntax and the pseudo-instructions (spec/30_encoding.md R68, D25): one line of
text to one instruction, whose word and payload `encode` gives. It has no part in the step. Where R68 does not
settle a detail of the text, see notes/assumptions/13.md. -/

namespace Sys2Proof.Machine.Asm

/-! ## The pseudo-instructions -/

/-- `KECCAK256 <bytes>` (R68). -/
def keccak256 (data : List Byte) : Instr := .hashBytes 256#10 data

/-- `KECCAK256_TEXT <chars>` (R68). -/
def keccak256Text (text : List CharCode) : Instr := .hashText 256#10 false text

/-- `KECCAK256_RAWTEXT <chars>` (R68). -/
def keccak256RawText (text : List CharCode) : Instr := .hashText 256#10 true text

/-! ## Characters and words of a line -/

/-- Drop the spaces around a text. -/
def trim (cs : List Char) : List Char :=
  ((cs.dropWhile (· == ' ')).reverse.dropWhile (· == ' ')).reverse

/-- The text before and after the first `sep`. -/
def splitOnce (sep : Char) : List Char → Option (List Char × List Char)
  | [] => none
  | c :: cs => if c = sep then some ([], cs) else (splitOnce sep cs).map fun p => (c :: p.1, p.2)

/-- Put a character in front of the first word; a space begins a new one. -/
def consWord (c : Char) : List (List Char) → List (List Char)
  | [] => if c = ' ' then [[]] else [[c]]
  | w :: ws => if c = ' ' then [] :: w :: ws else (c :: w) :: ws

/-- The words of a text, separated by spaces. -/
def wordsOf (cs : List Char) : List (List Char) :=
  (cs.foldr consWord [[]]).filter fun w => !w.isEmpty

/-! ## Numbers -/

def decDigit (c : Char) : Option Nat :=
  if 0x30 ≤ c.toNat ∧ c.toNat ≤ 0x39 then some (c.toNat - 0x30) else none

def hexDigitOf (c : Char) : Option Nat :=
  if 0x30 ≤ c.toNat ∧ c.toNat ≤ 0x39 then some (c.toNat - 0x30)
  else if 0x61 ≤ c.toNat ∧ c.toNat ≤ 0x66 then some (c.toNat - 0x61 + 10)
  else if 0x41 ≤ c.toNat ∧ c.toNat ≤ 0x46 then some (c.toNat - 0x41 + 10)
  else none

/-- A number from its digits in a base, the first digit the most significant; at least one digit. Leading zeros are
accepted, so `0256` is a width and `LANE07` a register name: DESIGN CHOICE (notes/assumptions/13.md). -/
def numberOf (base : Nat) (digit : Char → Option Nat) : List Char → Option Nat
  | [] => none
  | cs => cs.foldlM (fun acc c => (digit c).map fun d => acc * base + d) 0

def decNumber : List Char → Option Nat := numberOf 10 decDigit

/-- A hex number after `0x`; the prefix is required and in lower case, and leading zeros are accepted: DESIGN CHOICE
(notes/assumptions/13.md). -/
def hexNumber : List Char → Option Nat
  | '0' :: 'x' :: cs => numberOf 16 hexDigitOf cs
  | _ => none

/-- A value that fits the given number of bits. -/
def narrow (bits n : Nat) : Option (BitVec bits) := if n < 2 ^ bits then some (BitVec.ofNat bits n) else none

/-! ## Operands (R68) -/

/-- `<v>`: a decimal bit count; one that VBITS cannot hold is no operand, and leading zeros are accepted: DESIGN CHOICE
(notes/assumptions/13.md). -/
def width (cs : List Char) : Option VBits := (decNumber (trim cs)).bind (narrow 10)

/-- `<ishex>`: 0 or 1. -/
def flag (cs : List Char) : Option Bool :=
  match trim cs with
  | ['0'] => some false
  | ['1'] => some true
  | _ => none

/-- The character codes between double quotes. -/
def quoted : List Char → Option (List Nat)
  | '"' :: cs =>
    match cs.reverse with
    | '"' :: inside => if inside.contains '"' then none else some (inside.reverse.map Char.toNat)
    | _ => none
  | _ => none

/-- A two-digit hex byte. -/
def hexByte (w : List Char) : Option Byte :=
  if w.length = 2 then (numberOf 16 hexDigitOf w).bind (narrow 8) else none

/-- `<bytes>`: a quoted ASCII string, or two-digit hex bytes separated by spaces. -/
def bytes (cs : List Char) : Option (List Byte) :=
  match quoted (trim cs) with
  | some codes => codes.mapM fun n => if n < 0x80 then narrow 8 n else none
  | none =>
    match wordsOf cs with
    | [] => none
    | ws => ws.mapM hexByte

/-- `<chars>`: a quoted string, or hex codes in brackets. R68 shows the prefix `0x` of a bracketed code only in its
example; that a code needs it is DESIGN CHOICE (notes/assumptions/13.md). -/
def chars (cs : List Char) : Option (List CharCode) :=
  match quoted (trim cs) with
  | some codes => some codes
  | none =>
    match trim cs with
    | '[' :: rest =>
      match rest.reverse with
      | ']' :: inside => (wordsOf inside.reverse).mapM hexNumber
      | _ => none
    | _ => none

/-- `<reg>`: a register number in hex, or a name of R185. That the number needs the prefix `0x`, and that the n of
`LANE<n>` may have leading zeros, is DESIGN CHOICE (notes/assumptions/13.md). -/
def register (cs : List Char) : Option RegNum :=
  let w := trim cs
  if w = "STATUS".toList then some 0x00#8
  else if w = "VARIANT".toList then some 0x01#8
  else if w = "RATE".toList then some 0x02#8
  else if w = "BUFLEN".toList then some 0x03#8
  else if w = "BYTECOUNT".toList then some 0x04#8
  else if w = "DIGEST_BYTES".toList then some 0x05#8
  else
    match w with
    | 'L' :: 'A' :: 'N' :: 'E' :: n =>
      match decNumber n with
      | some k => if k ≤ 24 then narrow 8 (0x20 + k) else none
      | none => none
    | _ => (hexNumber w).bind (narrow 8)

/-! ## Lines -/

/-- One line of a command stream (R68): the mnemonic, then its operands separated by commas. -/
def line (cs : List Char) : Option Instr :=
  let l := trim cs
  let (m, rest) := (splitOnce ' ' l).getD (l, [])
  if m = "CONSTRUCT".toList then (width rest).map .construct
  else if m = "RESET".toList then if rest.isEmpty then some .reset else none
  else if m = "ADD".toList then (bytes rest).map .add
  else if m = "FINALIZE".toList then if rest.isEmpty then some .finalize else none
  else if m = "HASH_BYTES".toList then
    (splitOnce ',' rest).bind fun p => (width p.1).bind fun v => (bytes p.2).map (.hashBytes v)
  else if m = "HASH_TEXT".toList then
    (splitOnce ',' rest).bind fun p => (splitOnce ',' p.2).bind fun q =>
      (width p.1).bind fun v => (flag q.1).bind fun h => (chars q.2).map (.hashText v h)
  else if m = "READ_REG".toList then (register rest).map .readReg
  else if m = "KECCAK256".toList then (bytes rest).map keccak256
  else if m = "KECCAK256_TEXT".toList then (chars rest).map keccak256Text
  else if m = "KECCAK256_RAWTEXT".toList then (chars rest).map keccak256RawText
  else none

/-- The command a line of text stands for. -/
def assemble (text : String) : Option Command := (line text.toList).map encode

end Sys2Proof.Machine.Asm
end

