-- ==== Sys2Proof/Machine/Reference.lean ====
section
/-! DEFINITION. The hash function as a pure function of a message (spec/41_sponge_driver.md R140), written
from R41, R130, R140, R160 and R163 byte by byte and block by block, and apart from the driver's and
formatter's operations of Ops.lean. The hash calls the engine's `permute`; `keccakF` is the same permutation written
again by lane coordinates, apart from the engine. Claims compare the block with both. The counts of permutations
(30_encoding.md R71, 70_reset_and_hazards.md R247) stand here too. -/

namespace Sys2Proof.Machine.Reference

/-- Byte k of a message. -/
def at0 (m : List Byte) (k : Nat) : Byte := m[k]?.getD 0#8

/-- `lanes(X)`: byte k of X in bits `8*(k mod 8)+7 : 8*(k mod 8)` of lane `k div 8`, zero elsewhere (R41, R140). -/
def lanesOf (x : List Byte) : Lanes :=
  Vector.ofFn fun i =>
    (List.range 8).foldl (fun acc k => acc ||| ((at0 x (8 * i + k)).setWidth 64 <<< (8 * k))) 0#64

/-- `S ^ T`, lane by lane. -/
def xorLanes (S T : Lanes) : Lanes := Vector.ofFn fun i => laneAt S i ^^^ laneAt T i

/-- `KeccakF(S ^ lanes(B))` (R140). -/
def absorb (S : Lanes) (b : List Byte) : Lanes := permute (xorLanes S (lanesOf b))

/-- The complete blocks `B_j = M[j*RATE .. j*RATE+RATE-1]` (R140). -/
def blocks (rate : Nat) (m : List Byte) : List (List Byte) :=
  (List.range (m.length / rate)).map fun j => (m.drop (j * rate)).take rate

/-- `M[floor(n/RATE)*RATE .. n-1]` (R140). -/
def tail (rate : Nat) (m : List Byte) : List Byte := m.drop (m.length / rate * rate)

/-- Byte k of the padded block of `m` (R130): the message, then 0x01, then zeros, and 0x80 ORed into the last. -/
def padByte (rate : Nat) (m : List Byte) (k : Nat) : Byte :=
  (if k < m.length then at0 m k else if k = m.length then 0x01#8 else 0x00#8)
    ||| (if k + 1 = rate then 0x80#8 else 0x00#8)

/-- The padded block (R130). -/
def pad (rate : Nat) (m : List Byte) : List Byte := (List.range rate).map (padByte rate m)

/-- The ASCII codes of the hex digits, in order (R163). -/
def hexDigits : List Byte :=
  [0x30#8, 0x31#8, 0x32#8, 0x33#8, 0x34#8, 0x35#8, 0x36#8, 0x37#8,
   0x38#8, 0x39#8, 0x61#8, 0x62#8, 0x63#8, 0x64#8, 0x65#8, 0x66#8]

/-- Digest byte j is bits `8*(j mod 8)+7 : 8*(j mod 8)` of lane `j div 8` (R42). -/
def digestByte (T : Lanes) (j : Nat) : Byte := (laneAt T (j / 8)).extractLsb' (8 * (j % 8)) 8

/-- Character i of the hex digest: the high nibble of a byte comes first (R163). -/
def hexChar (T : Lanes) (i : Nat) : Byte :=
  let b := (digestByte T (i / 2)).toNat
  at0 hexDigits (if i % 2 = 0 then b / 16 else b % 16)

/-- `FormatDigest` of a width: `V/4` characters (R162). -/
def format (v : VBits) (T : Lanes) : List Byte := (List.range (v.toNat / 4)).map (hexChar T)

/-- The lanes after every complete block of `m`, from `S` (R140). -/
def absorbAll (rate : Nat) (S : Lanes) (m : List Byte) : Lanes := (blocks rate m).foldl absorb S

/-- The lanes a finalize formats (R140). -/
def finalLanes (v : VBits) (m : List Byte) : Lanes :=
  absorb (absorbAll (rateOf v) zeroLanes m) (pad (rateOf v) (tail (rateOf v) m))

/-- `Keccak_V(M)` (R140), as its hex digest. -/
def keccak (v : VBits) (m : List Byte) : List Byte := format v (finalLanes v m)

/-! ## The permutation by lane coordinates (R11, R12, R100 to R107)

Only the tables of R103 and R106 are shared with the engine. -/

/-- `A[x,y]`, indices mod 5 (R11, R12). -/
def lane (S : Lanes) (x y : Nat) : Lane := laneAt S (5 * (y % 5) + x % 5)

/-- The lane file whose lane `(x, y)` is `f x y` (R12). -/
def ofLanes (f : Nat → Nat → Lane) : Lanes := Vector.ofFn fun i => f (i.val % 5) (i.val / 5)

/-- The XOR of the five lanes of column x (R101). -/
def parity (S : Lanes) (x : Nat) : Lane := (List.range 5).foldl (fun acc y => acc ^^^ lane S x y) 0#64

/-- `A[x,y] ^ C[x-1] ^ rotl(C[x+1], 1)` (R101). -/
def thetaXY (S : Lanes) : Lanes :=
  ofLanes fun x y => lane S x y ^^^ parity S (x + 4) ^^^ (parity S (x + 1)).rotateLeft 1

/-- The lane that arrives at `(x, y)`: it comes from `(x + 3y, x)`, since `(a, b)` goes to `(b, 2a + 3b)` (R102). -/
def rhoPiXY (S : Lanes) : Lanes :=
  ofLanes fun x y => (lane S (x + 3 * y) x).rotateLeft (rot (5 * x + (x + 3 * y) % 5))

/-- `a_x ^ (~a_{x+1} & a_{x+2})` within row y (R104). -/
def chiXY (S : Lanes) : Lanes :=
  ofLanes fun x y => lane S x y ^^^ (~~~ lane S (x + 1) y &&& lane S (x + 2) y)

/-- Only the lane at `(0, 0)` takes the round constant (R105). -/
def iotaXY (r : Nat) (S : Lanes) : Lanes :=
  ofLanes fun x y => if x = 0 ∧ y = 0 then lane S 0 0 ^^^ roundConstant r else lane S x y

/-- The lanes after rounds 0 to n-1, each theta, then rho and pi, then chi, then iota (R100, R107). -/
def rounds : Nat → Lanes → Lanes
  | 0, S => S
  | n + 1, S => iotaXY n (chiXY (rhoPiXY (thetaXY (rounds n S))))

/-- `KeccakF`: rounds 0 to 23 (R7, R100). -/
def keccakF (S : Lanes) : Lanes := rounds 24 S

/-! ## Costs -/

/-- The permutations a command performs when it responds OK, from a block of width `v` with `bufLen` bytes
buffered (R71, R247). It is a cost with no meaning in time. -/
def permutations (v : VBits) (bufLen : Nat) : Instr → Nat
  | .construct _ => 0
  | .reset => 0
  | .add data => (bufLen + data.length) / rateOf v
  | .finalize => 1
  | .hashBytes w data => data.length / rateOf w + 1
  | .hashText w _ text => text.length / rateOf w + 1
  | .readReg _ => 0

end Sys2Proof.Machine.Reference
end

