-- ==== Sys2Proof/Safety.lean ====
section
/-! DEFINITION. What claims about the machine are stated with: the invariants of spec/10_state.md R36, when a
block is ready for a command, how a run ends (70_reset_and_hazards.md R245), and when two states cannot be told
apart (10_state.md R25, 92_eei_decisions.md D22). -/

namespace Sys2Proof.Machine

/-- R36, clause by clause, and the bookkeeping of the port: one response for each completed command, and one
more when a fault has halted the block (R21, R72, R204). -/
structure State.Inv (s : State) : Prop where
  variant_legal : s.variant = 224#10 ∨ s.variant = 256#10 ∨ s.variant = 384#10 ∨ s.variant = 512#10
  bufLen_lt : s.bufLen.toNat < 200 - 2 * (s.variant.toNat / 8)
  spent_oneShot : s.phase = .spent → s.config.finalizeMode = .oneShot
  spent_empty : s.phase = .spent → s.bufLen = 0#8
  fault_code : s.fault.toNat ≤ 0x06
  one_response : s.responses.length = s.cmdIndex + (if s.fault = 0x00#8 then 0 else 1)

/-- The block accepts a command: no fault is recorded and R36 holds. -/
structure State.Ready (s : State) : Prop where
  no_fault : s.fault = 0x00#8
  variant_legal : s.variant = 224#10 ∨ s.variant = 256#10 ∨ s.variant = 384#10 ∨ s.variant = 512#10
  bufLen_lt : s.bufLen.toNat < 200 - 2 * (s.variant.toNat / 8)
  spent_oneShot : s.phase = .spent → s.config.finalizeMode = .oneShot
  spent_empty : s.phase = .spent → s.bufLen = 0#8

/-- `v` is one of the four widths (R6). -/
def LegalWidth (v : VBits) : Prop := v = 224#10 ∨ v = 256#10 ∨ v = 384#10 ∨ v = 512#10

/-- `s` with the fault of code `c` taken, and nothing else (R204): FAULT and the response say the code. -/
def State.faulted (s : State) (c : Byte) : State :=
  { s with fault := c, responses := s.responses ++ [{ status := c, data := .none }] }

/-- `s` with one command completed, its response `(OK, d)` given, and nothing else (R70, R72). -/
def State.responded (s : State) (d : ResponseData) : State :=
  { s with
    cmdIndex := s.cmdIndex + 1
    pending := s.pending.tail
    responses := s.responses ++ [{ status := 0x00#8, data := d }] }

/-- `BUF[0..BUFLEN-1]`, the bytes of the stream that no block has absorbed yet (R34). -/
def State.buffered (s : State) : List Byte := s.buf.toList.take s.bufLen.toNat

/-- `b` is the ASCII code of a lowercase hex digit (R163). -/
def IsHexDigit (b : Byte) : Prop :=
  (0x30 ≤ b.toNat ∧ b.toNat ≤ 0x39) ∨ (0x61 ≤ b.toNat ∧ b.toNat ≤ 0x66)

/-- A run has ended normally: the host has no command left and no command faulted (R245). -/
def State.EndedNormally (s : State) : Prop := s.pending = [] ∧ s.fault = 0x00#8

/-- Take k steps, stopping where one stops. -/
def runSteps : Nat → State → Result
  | 0, s => .next s
  | k + 1, s =>
    match step s with
    | .next t => runSteps k t
    | .fault f => .fault f
    | .refused r => .refused r

/-- Execute instructions in order, stopping where one stops. -/
def execAll : List Instr → State → Result
  | [], s => .next s
  | i :: is, s =>
    match exec i s with
    | .next t => execAll is t
    | .fault f => .fault f
    | .refused r => .refused r

/-- Two states that differ at most in the bytes of BUF from BUFLEN on (R25, D22). -/
structure SameVisible (s t : State) : Prop where
  lanes : s.lanes = t.lanes
  variant : s.variant = t.variant
  bufLen : s.bufLen = t.bufLen
  buffered : ∀ k : Nat, k < s.bufLen.toNat → s.buf[k]? = t.buf[k]?
  byteCount : s.byteCount = t.byteCount
  phase : s.phase = t.phase
  fault : s.fault = t.fault
  cmdIndex : s.cmdIndex = t.cmdIndex
  config : s.config = t.config
  pending : s.pending = t.pending
  responses : s.responses = t.responses
  powerOn : s.powerOn = t.powerOn

/-- Two answers of the machine that cannot be told apart. -/
def SameAnswer : Result → Result → Prop
  | .next s, .next t => SameVisible s t
  | .fault f, .fault g => f = g
  | .refused r, .refused q => r = q
  | _, _ => False

end Sys2Proof.Machine
end

