-- ==== Sys2Proof/Certificates/Slice0/Obligations.lean ====
section
/-! DEFINITION. The statements for the provers. Each says which rule of spec/ it formalises; the entry of the
same name in OBLIGATIONS.json has its title, basis and quote. Full successor states are written as record updates, so
each result statement is the frame of its command as well. -/

open Sys2Proof Sys2Proof.Machine

/-! ## Encoding -/

/-- R69's reference words decode to the commands they stand for, and words of R66 and 95_test_vectors.md V-X1 are
rejected by name. -/
def Obligations.ReferenceWordsDecode : Prop :=
  decode 16 ⟨0x00E00001#32, .empty⟩ = .ok (.construct 224#10) ∧
  decode 16 ⟨0x00000002#32, .empty⟩ = .ok .reset ∧
  decode 16 ⟨0x00000003#32, .bytes [0x61#8, 0x62#8]⟩ = .ok (.add [0x61#8, 0x62#8]) ∧
  decode 16 ⟨0x00000004#32, .empty⟩ = .ok .finalize ∧
  decode 16 ⟨0x02000010#32, .bytes [0xFF#8]⟩ = .ok (.hashBytes 512#10 [0xFF#8]) ∧
  decode 16 ⟨0x01800111#32, .chars [0x61]⟩ = .ok (.hashText 384#10 true [0x61]) ∧
  decode 16 ⟨0x00003820#32, .empty⟩ = .ok (.readReg 0x38#8) ∧
  decode 16 ⟨0x00000000#32, .empty⟩ = .error .unassignedOpcode ∧
  decode 16 ⟨0x01000101#32, .empty⟩ = .error .reservedBitSet ∧
  decode 16 ⟨0x00000004#32, .bytes [0x78#8]⟩ = .error .wrongPayloadKind

/-- Decoding the word and payload R68 gives an instruction gives the instruction back, with every operand at
every value (R61, R62, R64, R68), at every `CHAR_WIDTH`. -/
def Obligations.DecodeOfEncode : Prop :=
  ∀ (cw : Nat) (i : Instr), i.wf cw = true → decode cw (encode i) = .ok i

/-- A command that decodes is the encoding of what it decodes to: no bit of the word and no element of the payload
is ignored (R61, R65). That no character code of `2^CHAR_WIDTH` or more decodes (the clause `i.wf cw = true`) is the
model's reading, DEDUCED (notes/assumptions/8.md). -/
def Obligations.EncodeOfDecode : Prop :=
  ∀ (cw : Nat) (c : Command) (i : Instr), decode cw c = .ok i →
    (encode i).word = c.word ∧ i.wf cw = true ∧
      ((encode i).payload = c.payload ∨ (c.payload.isEmpty = true ∧ (encode i).payload.isEmpty = true))

/-- The port obeys the match and mask table of R63: a word that matches a row, with a payload that is empty or of
the row's kind, runs as the row's command with the fields of R62; every other word and payload takes
ILLEGAL_COMMAND (R65, R66). That a character code of `2^CHAR_WIDTH` or more makes a payload of no kind, and so an
ILLEGAL_COMMAND, is the model's reading, DEDUCED (notes/assumptions/8.md). -/
def Obligations.PortObeysOpcodeTable : Prop :=
  ∀ (s : State) (w : Word) (p : Payload) (rest : List Command),
    s.Ready → s.powerOn = none → s.pending = ⟨w, p⟩ :: rest →
    let none' := p.isEmpty = true
    let bytes := p.isEmpty = true ∨ ∃ d, p = .bytes d
    let chars := p.isEmpty = true ∨ ∃ t, p = .chars t ∧ ∀ c ∈ t, c < 2 ^ s.config.charWidth
    let v : VBits := w.extractLsb' 16 10
    (w &&& 0xFC00FFFF#32 = 0x00000001#32 → none' → step s = exec (.construct v) s) ∧
    (w &&& 0xFFFFFFFF#32 = 0x00000002#32 → none' → step s = exec .reset s) ∧
    (w &&& 0xFFFFFFFF#32 = 0x00000003#32 → bytes → step s = exec (.add p.byteList) s) ∧
    (w &&& 0xFFFFFFFF#32 = 0x00000004#32 → none' → step s = exec .finalize s) ∧
    (w &&& 0xFC00FFFF#32 = 0x00000010#32 → bytes → step s = exec (.hashBytes v p.byteList) s) ∧
    (w &&& 0xFC00FEFF#32 = 0x00000011#32 → chars → step s = exec (.hashText v (w.getLsbD 8) p.charList) s) ∧
    (w &&& 0xFFFF00FF#32 = 0x00000020#32 → none' → step s = exec (.readReg (w.extractLsb' 8 8)) s) ∧
    (¬ (w &&& 0xFC00FFFF#32 = 0x00000001#32 ∧ none') → ¬ (w = 0x00000002#32 ∧ none') →
      ¬ (w = 0x00000003#32 ∧ bytes) → ¬ (w = 0x00000004#32 ∧ none') →
      ¬ (w &&& 0xFC00FFFF#32 = 0x00000010#32 ∧ bytes) → ¬ (w &&& 0xFC00FEFF#32 = 0x00000011#32 ∧ chars) →
      ¬ (w &&& 0xFFFF00FF#32 = 0x00000020#32 ∧ none') → step s = .next (s.faulted 0x01#8))

/-- The three pseudo-instructions of R68 are the commands it expands them to, as words and payloads. -/
def Obligations.PseudoInstructionsExpand : Prop :=
  (∀ d, encode (Asm.keccak256 d) = ⟨0x01000010#32, .bytes d⟩) ∧
  (∀ t, encode (Asm.keccak256Text t) = ⟨0x01000011#32, .chars t⟩) ∧
  (∀ t, encode (Asm.keccak256RawText t) = ⟨0x01000111#32, .chars t⟩)

/-! ## The step -/

/-- When the next command of the host decodes to an instruction, the step is that instruction's execution, and
nothing is added around it (R65 step 4). -/
def Obligations.StepRunsDecodedInstruction : Prop :=
  ∀ (s : State) (c : Command) (rest : List Command) (i : Instr),
    s.powerOn = none → s.fault = 0x00#8 → s.pending = c :: rest →
    decode s.config.charWidth c = .ok i → step s = exec i s

/-- A table word placed as the next command is the instruction the step runs (notes/assumptions/10.md). -/
def Obligations.PlacedWordIsRun : Prop :=
  ∀ (s : State) (nbits w : Nat) (i : Instr),
    s.fault = 0x00#8 → decodeTableWord nbits w = some i →
    step (s.withFetchWord nbits w) = exec i (s.withFetchWord nbits w)

/-- A halted block accepts no command, RESET and CONSTRUCT included, and has no successor unless the host applies
power-on reset (R205). -/
def Obligations.HaltedBlockAcceptsNothing : Prop :=
  ∀ s : State, s.fault ≠ 0x00#8 →
    (s.powerOn = none → step s = .fault (.halted s.fault)) ∧
    ∀ i : Instr, exec i s = .fault (.halted s.fault)

/-- Between commands the block is idle and all its state survives (R217). That the idle block is a step that
changes nothing is the model's choice (notes/assumptions/1.md). -/
def Obligations.IdleBlockKeepsState : Prop :=
  ∀ s : State, s.powerOn = none → s.fault = 0x00#8 → s.pending = [] → step s = .next s

/-- Power-on reset, from any state, halted or not, and no other event clears FAULT (R240). Nothing is said of BUF,
which is unspecified. The field `powerOn` is the model's way to hold this input (notes/assumptions/9.md). -/
def Obligations.PowerOnResetsBlock : Prop :=
  (∀ s t : State, s.fault ≠ 0x00#8 → step s = .next t → s.powerOn ≠ none) ∧
  ∀ (s : State) (cmds : List Command), s.powerOn = some cmds →
    ∃ t, step s = .next t ∧ (∀ i, i < 25 → laneAt t.lanes i = 0#64) ∧ t.variant = 256#10 ∧ t.bufLen = 0#8 ∧
      t.byteCount = 0#64 ∧ t.phase = .absorbing ∧ t.fault = 0x00#8 ∧ t.cmdIndex = 0 ∧ t.config = s.config ∧
      t.statusWord = (if s.config.finalizeMode = .resumable then 2#64 else 0#64) ∧
      (∀ i u, exec i t ≠ .fault u)

/-- FAULT is written by a fault alone, and only power-on reset clears it (R30). -/
def Obligations.OnlyPowerOnClearsFault : Prop :=
  ∀ s t : State, step s = .next t →
    (s.fault ≠ 0x00#8 → s.powerOn ≠ none) ∧
    (s.powerOn = none → t.fault ≠ s.fault →
      s.fault = 0x00#8 ∧ t.responses = s.responses ++ [{ status := t.fault, data := .none }])

/-- The state after reset has the values of R35, with the default parameters of R8 (notes/assumptions/3.md). BUF is
unspecified, and nothing is said of it. -/
def Obligations.ResetValues : Prop :=
  (∀ i, i < 25 → laneAt State.reset.lanes i = 0#64) ∧ State.reset.variant = 256#10 ∧ State.reset.bufLen = 0#8 ∧
  State.reset.byteCount = 0#64 ∧ State.reset.phase = .absorbing ∧ State.reset.fault = 0x00#8 ∧
  State.reset.cmdIndex = 0 ∧ State.reset.config = ⟨.oneShot, 16⟩ ∧ State.reset.statusWord = 0#64

/-- Every step either leaves an idle block as it was, or completes one command and moves the index on by 1, or
faults and leaves the index and the command where they were (R21, R70). The model's own readings:
the idle step (DESIGN CHOICE, notes/assumptions/1.md), the place of a command the decoder rejects (DEDUCED,
notes/assumptions/11.md), and that RESET moves the index on, where R35 could be read otherwise (DEDUCED,
notes/assumptions/17.md). -/
def Obligations.CommandIndexCountsCompletions : Prop :=
  ∀ s t : State, s.powerOn = none → step s = .next t →
    (s.pending = [] ∧ t = s) ∨
    (t.fault = 0x00#8 ∧ t.cmdIndex = s.cmdIndex + 1 ∧ t.pending = s.pending.tail ∧ s.pending ≠ []) ∨
    (t.fault ≠ 0x00#8 ∧ t.cmdIndex = s.cmdIndex ∧ t.pending = s.pending)

/-- A run that issues the commands `cmds` and ends without a fault has given exactly one response to each, every one
OK, and has none of them left; from power-on reset, with nothing else to issue, it has ended normally and its
observation is those responses (R245). -/
def Obligations.NormalEndHasAllResponses : Prop :=
  (∀ (s t : State) (cmds rest : List Command), s.powerOn = none → s.pending = cmds ++ rest →
    runSteps cmds.length s = .next t → t.fault = 0x00#8 →
      t.pending = rest ∧ ∃ rs : List Response, t.responses = s.responses ++ rs ∧ rs.length = cmds.length ∧
        ∀ r ∈ rs, r.status = 0x00#8) ∧
  ∀ (c : Config) (cmds : List Command) (t : State), runSteps cmds.length (State.afterPowerOn c cmds) = .next t →
    t.fault = 0x00#8 → t.EndedNormally ∧ t.responses.length = cmds.length

/-! ## Faults -/

/-- A fault is precise and atomic, whichever command or word raises it: FAULT and the response carry the code,
everything else is as it was, and the block is halted (R204). -/
def Obligations.FaultsArePrecise : Prop :=
  (∀ (i : Instr) (s t : State), exec i s = .next t → t.fault ≠ 0x00#8 → t = s.faulted t.fault) ∧
  (∀ s t : State, s.powerOn = none → step s = .next t → t.fault ≠ 0x00#8 →
    t = s.faulted t.fault ∧ step t = .fault (.halted t.fault))

/-- A width that is not one of the four raises BAD_VARIANT in each command that takes one, before anything is
written, and whatever the text is (R133, R201). -/
def Obligations.IllegalWidthRaisesBadVariant : Prop :=
  (∀ v : VBits, legal v = true ↔ v = 224#10 ∨ v = 256#10 ∨ v = 384#10 ∨ v = 512#10) ∧
  ∀ (s : State) (v : VBits), s.Ready → ¬ LegalWidth v →
    exec (.construct v) s = .next (s.faulted 0x02#8) ∧
    (∀ d, exec (.hashBytes v d) s = .next (s.faulted 0x02#8)) ∧
    (∀ h t, exec (.hashText v h t) s = .next (s.faulted 0x02#8))

/-- ADD and FINALIZE on a spent instance raise SPENT_INSTANCE, an empty ADD too; an instance is spent only in
ONE_SHOT mode, after FINALIZE, HASH_BYTES or HASH_TEXT; the other commands are accepted there (R202). -/
def Obligations.SpentInstanceRefusesInput : Prop :=
  (∀ s : State, s.Ready → s.phase = .spent →
    s.config.finalizeMode = .oneShot ∧
    (∀ d, exec (.add d) s = .next (s.faulted 0x03#8)) ∧
    exec .finalize s = .next (s.faulted 0x03#8) ∧
    (∃ t, exec .reset s = .next t ∧ t.fault = 0x00#8) ∧
    (∀ v, LegalWidth v → ∃ t, exec (.construct v) s = .next t ∧ t.fault = 0x00#8) ∧
    (∀ v d, LegalWidth v → ∃ t, exec (.hashBytes v d) s = .next t ∧ t.fault = 0x00#8) ∧
    (∀ v h x, LegalWidth v → (∀ c ∈ x, c ≤ 0xFF) → ∃ t, exec (.hashText v h x) s = .next t ∧ t.fault = 0x00#8) ∧
    (∀ n : RegNum, n.toNat ≤ 0x05 ∨ (0x20 ≤ n.toNat ∧ n.toNat ≤ 0x38) →
      ∃ t, exec (.readReg n) s = .next t ∧ t.fault = 0x00#8)) ∧
  ∀ (i : Instr) (s t : State), exec i s = .next t → s.phase = .absorbing → t.phase = .spent →
    s.config.finalizeMode = .oneShot ∧
      (i = .finalize ∨ (∃ v d, i = .hashBytes v d) ∨ ∃ v h x, i = .hashText v h x)

/-- One command reports one fault, the first of R203's list that applies. -/
def Obligations.FaultPriority : Prop :=
  ∀ (s : State) (c : Command) (rest : List Command), s.Ready → s.powerOn = none → s.pending = c :: rest →
    (∀ e, decode s.config.charWidth c = .error e → step s = .next (s.faulted 0x01#8)) ∧
    (∀ v, decode s.config.charWidth c = .ok (.construct v) → ¬ LegalWidth v → step s = .next (s.faulted 0x02#8)) ∧
    (∀ v d, decode s.config.charWidth c = .ok (.hashBytes v d) → ¬ LegalWidth v →
      step s = .next (s.faulted 0x02#8)) ∧
    (∀ v h x, decode s.config.charWidth c = .ok (.hashText v h x) → ¬ LegalWidth v →
      step s = .next (s.faulted 0x02#8)) ∧
    (∀ n, decode s.config.charWidth c = .ok (.readReg n) →
      (0x06 ≤ n.toNat ∧ n.toNat ≤ 0x1F) ∨ 0x39 ≤ n.toNat → step s = .next (s.faulted 0x05#8)) ∧
    (∀ d, decode s.config.charWidth c = .ok (.add d) → s.phase = .spent → step s = .next (s.faulted 0x03#8)) ∧
    (decode s.config.charWidth c = .ok .finalize → s.phase = .spent → step s = .next (s.faulted 0x03#8)) ∧
    (∀ v h x, decode s.config.charWidth c = .ok (.hashText v h x) → LegalWidth v → (∃ k ∈ x, 0xFF < k) →
      step s = .next (s.faulted 0x04#8))

/-- A breach of R36 is raised as INTERNAL_INVARIANT by whatever command meets it, and no step from a state that
keeps the invariants raises it (R207). That it comes before the faults of R203's list is the model's choice
(notes/assumptions/7.md). -/
def Obligations.BreachRaisesInternalInvariant : Prop :=
  (∀ (s : State) (i : Instr), s.fault = 0x00#8 → ¬ s.Ready → exec i s = .next (s.faulted 0x06#8)) ∧
  ∀ s t : State, s.Inv → s.powerOn = none → step s = .next t → t.fault ≠ 0x06#8

/-! ## CONSTRUCT and RESET -/

/-- CONSTRUCT (R135): its word, a fresh instance of a legal width in any phase, BAD_VARIANT on any other, and the
same as RESET for the width the block has. -/
def Obligations.ConstructStartsFreshInstance : Prop :=
  ∀ (s : State) (v : VBits), s.Ready →
    (encode (.construct v)).word = (v.setWidth 32 <<< 16) ||| 0x01#32 ∧
    (LegalWidth v → exec (.construct v) s = .next ({ s with
      lanes := Vector.replicate 25 0#64, variant := v, byteCount := 0#64, bufLen := 0#8,
      phase := .absorbing : State }.responded .none)) ∧
    (¬ LegalWidth v → exec (.construct v) s = .next (s.faulted 0x02#8)) ∧
    exec (.construct s.variant) s = exec .reset s

/-- RESET (R136): lanes, BYTECOUNT, BUFLEN and PHASE are cleared, VARIANT and the bytes of BUF stay, in any phase; a
second RESET changes none of them. That a completed RESET moves the command index on by 1 is the model's reading of
R35 beside R70, DEDUCED (notes/assumptions/17.md). -/
def Obligations.ResetClearsInstance : Prop :=
  (encode .reset).word = 0x00000002#32 ∧
  ∀ s : State, s.Ready →
    ∃ t, exec .reset s = .next t ∧
      t = { s with
        lanes := Vector.replicate 25 0#64, byteCount := 0#64, bufLen := 0#8,
        phase := .absorbing : State }.responded .none ∧
      exec .reset t = .next (t.responded .none)

/-! ## ADD -/

/-- ADD (R137, R41): its word; SPENT_INSTANCE on a spent instance; else the lanes take every complete block of the
buffered remainder followed by the data, BUF keeps what is left over, BYTECOUNT counts the data modulo 2^64, and an
empty ADD changes nothing. -/
def Obligations.AddAbsorbsCompleteBlocks : Prop :=
  ∀ (s : State) (data : List Byte), s.Ready →
    let rate := 200 - 2 * (s.variant.toNat / 8)
    let stream := s.buffered ++ data
    (encode (.add data)).word = 0x00000003#32 ∧
    (s.phase = .spent → exec (.add data) s = .next (s.faulted 0x03#8)) ∧
    (s.phase = .absorbing → ∃ buf' : Buffer,
      exec (.add data) s = .next ({ s with
        lanes := Reference.absorbAll rate s.lanes stream
        buf := buf'
        bufLen := BitVec.ofNat 8 ((s.bufLen.toNat + data.length) % rate)
        byteCount := s.byteCount + BitVec.ofNat 64 data.length : State }.responded .none) ∧
      buf'.toList.take ((s.bufLen.toNat + data.length) % rate) = Reference.tail rate stream) ∧
    (s.phase = .absorbing → exec (.add []) s = .next (s.responded .none))

/-- How many permutations an ADD performs: the lanes are the permutation chain over exactly
`floor((BUFLEN + L)/RATE)` blocks of RATE bytes, which with the new remainder are the old remainder and the data
(R71, R132, R247). -/
def Obligations.AddPermutesOncePerBlock : Prop :=
  ∀ (s t : State) (data : List Byte), s.Ready → s.phase = .absorbing → exec (.add data) s = .next t →
    ∃ bs : List (List Byte),
      bs.length = Reference.permutations s.variant s.bufLen.toNat (.add data) ∧
      bs.length = (s.bufLen.toNat + data.length) / (200 - 2 * (s.variant.toNat / 8)) ∧
      (∀ b ∈ bs, b.length = 200 - 2 * (s.variant.toNat / 8)) ∧
      bs.flatten ++ t.buffered = s.buffered ++ data ∧
      t.lanes = bs.foldl Reference.absorb s.lanes

/-- Splitting the input across two ADDs leaves the lanes, the buffered bytes, BUFLEN and BYTECOUNT one ADD of the
concatenation leaves (R139). -/
def Obligations.AddSplitIndependence : Prop :=
  ∀ (s : State) (a b : List Byte), s.Ready → s.phase = .absorbing →
    ∃ t u w, exec (.add a) s = .next t ∧ exec (.add b) t = .next u ∧ exec (.add (a ++ b)) s = .next w ∧
      u.lanes = w.lanes ∧ u.buffered = w.buffered ∧ u.bufLen = w.bufLen ∧ u.byteCount = w.byteCount

/-! ## FINALIZE and the entry points -/

/-- FINALIZE (R138): its word; SPENT_INSTANCE on a spent instance; else the digest of the lanes with the padded
remainder absorbed is the response. In ONE_SHOT mode the lanes are those, BUFLEN is 0 and the instance is spent; in
RESUMABLE mode no register of the block changes. -/
def Obligations.FinalizeReturnsDigest : Prop :=
  ∀ s : State, s.Ready →
    let rate := 200 - 2 * (s.variant.toNat / 8)
    let final := Reference.absorb s.lanes (Reference.pad rate s.buffered)
    let h := Reference.format s.variant final
    (encode .finalize).word = 0x00000004#32 ∧
    (s.phase = .spent → exec .finalize s = .next (s.faulted 0x03#8)) ∧
    (s.phase = .absorbing → s.config.finalizeMode = .oneShot →
      exec .finalize s =
        .next ({ s with lanes := final, bufLen := 0#8, phase := .spent : State }.responded (.hex h))) ∧
    (s.phase = .absorbing → s.config.finalizeMode = .resumable → exec .finalize s = .next (s.responded (.hex h)))

/-- In RESUMABLE mode two FINALIZEs with nothing between them return the same digest and leave the block as it was, and
a FINALIZE between two ADDs does not change what they leave; in ONE_SHOT mode the second FINALIZE faults (R46). -/
def Obligations.FinalizeTwice : Prop :=
  ∀ s : State, s.Ready → s.phase = .absorbing →
    (s.config.finalizeMode = .resumable → ∃ h,
      execAll [.finalize, .finalize] s = .next ((s.responded (.hex h)).responded (.hex h)) ∧
      ∀ a b : List Byte, ∃ t u, execAll [.add a, .finalize, .add b] s = .next t ∧ execAll [.add a, .add b] s = .next u ∧
        t.lanes = u.lanes ∧ t.variant = u.variant ∧ t.buf = u.buf ∧ t.bufLen = u.bufLen ∧
        t.byteCount = u.byteCount ∧ t.phase = u.phase ∧ t.fault = u.fault) ∧
    (s.config.finalizeMode = .oneShot → ∃ t, exec .finalize s = .next t ∧ t.fault = 0x00#8 ∧
      exec .finalize t = .next (t.faulted 0x03#8))

/-- HASH_BYTES (R166): its word; BAD_VARIANT on an illegal width; else it returns `Keccak_V` of its data (R140) from
any ready state, spent or not, and leaves what R166 says, in both modes. `Keccak_V` is R140's function, which the spec
marks as derived. -/
def Obligations.HashBytesReturnsKeccak : Prop :=
  ∀ (s : State) (v : VBits) (data : List Byte), s.Ready →
    let rate := 200 - 2 * (v.toNat / 8)
    (encode (.hashBytes v data)).word = (v.setWidth 32 <<< 16) ||| 0x10#32 ∧
    (¬ LegalWidth v → exec (.hashBytes v data) s = .next (s.faulted 0x02#8)) ∧
    (LegalWidth v → ∃ buf' : Buffer,
      (s.config.finalizeMode = .oneShot →
        exec (.hashBytes v data) s = .next ({ s with
          lanes := Reference.finalLanes v data, variant := v, buf := buf', bufLen := 0#8,
          byteCount := BitVec.ofNat 64 data.length,
          phase := .spent : State }.responded (.hex (Reference.keccak v data)))) ∧
      (s.config.finalizeMode = .resumable →
        exec (.hashBytes v data) s = .next ({ s with
          lanes := Reference.absorbAll rate (Vector.replicate 25 0#64) data, variant := v, buf := buf',
          bufLen := BitVec.ofNat 8 (data.length % rate), byteCount := BitVec.ofNat 64 data.length,
          phase := .absorbing : State }.responded (.hex (Reference.keccak v data)))) ∧
      buf'.toList.take (data.length % rate) = Reference.tail rate data)

/-- HASH_TEXT (R167): its word; BAD_VARIANT on an illegal width, whatever the text is; then TEXT_CODE_RANGE when a code
is above 0xFF, anywhere and in both modes; else HASH_BYTES of the bytes of the same values, whatever ISHEX is. For
ISHEX = 0 the bytes 0x80 to 0xFF are the Latin-1 identity, which is the spec's own choice D28,
PRESUMED (notes/assumptions/15.md). -/
def Obligations.HashTextHashesCharacterBytes : Prop :=
  ∀ (s : State) (v : VBits) (isHex : Bool) (text : List CharCode), s.Ready →
    (encode (.hashText v isHex text)).word =
      (v.setWidth 32 <<< 16) ||| (if isHex then 0x100#32 else 0#32) ||| 0x11#32 ∧
    (¬ LegalWidth v → exec (.hashText v isHex text) s = .next (s.faulted 0x02#8)) ∧
    (LegalWidth v → (∃ c ∈ text, 0xFF < c) → exec (.hashText v isHex text) s = .next (s.faulted 0x04#8)) ∧
    (LegalWidth v → (∀ c ∈ text, c ≤ 0xFF) →
      ∃ t, exec (.hashText v isHex text) s = .next t ∧
        exec (.hashBytes v (text.map (BitVec.ofNat 8))) s = .next t ∧
        t.responses =
          s.responses ++ [{ status := 0x00#8, data := .hex (Reference.keccak v (text.map (BitVec.ofNat 8))) }])

/-- TEXT_TO_BYTES (R165): no bytes when a code is above 0xFF, else one byte for each code, of the same value. For
ISHEX = 0 and the codes 0x80 to 0xFF that is the Latin-1 identity, the spec's own choice D28, PRESUMED
(notes/assumptions/15.md). -/
def Obligations.TextNarrowsToBytes : Prop :=
  ∀ (isHex : Bool) (text : List CharCode),
    ((∃ c ∈ text, 0xFF < c) → textToBytes isHex text = none) ∧
    ((∀ c ∈ text, c ≤ 0xFF) →
      ∃ data, textToBytes isHex text = some data ∧ data.map BitVec.toNat = text)

/-- HASH_BYTES leaves what CONSTRUCT, ADD and FINALIZE in a row leave, but for the command index, the host's
queue and the two earlier responses (R166, D10). -/
def Obligations.HashBytesIsConstructAddFinalize : Prop :=
  ∀ (s : State) (v : VBits) (data : List Byte), s.Ready → LegalWidth v →
    ∃ t u d, exec (.hashBytes v data) s = .next t ∧
      execAll [.construct v, .add data, .finalize] s = .next u ∧
      t.responses = s.responses ++ [{ status := 0x00#8, data := d }] ∧
      u = { t with
        cmdIndex := s.cmdIndex + 3
        pending := s.pending.tail.tail.tail
        responses := s.responses ++ [{ status := 0x00#8, data := .none }, { status := 0x00#8, data := .none },
          { status := 0x00#8, data := d }] }

/-- Any stream of ADDs after CONSTRUCT, and one FINALIZE, returns `Keccak_V` of the concatenated payloads
(R139, R140), in both modes. -/
def Obligations.StreamHashesToKeccak : Prop :=
  ∀ (s : State) (v : VBits) (ms : List (List Byte)), s.Ready → LegalWidth v →
    ∃ t, execAll (.construct v :: (ms.map Instr.add ++ [.finalize])) s = .next t ∧
      t.responses.getLast? = some { status := 0x00#8, data := .hex (Reference.keccak v ms.flatten) } ∧
      t.responses.length = s.responses.length + ms.length + 2

/-- A command that executes returns one response, and a halted block none. A finalizing command returns exactly
`VARIANT/4` lowercase hex characters, and every response has the kind of data R72's table gives its command; a fault's
response carries the code and no data. -/
def Obligations.ResponsesHaveTheirShape : Prop :=
  ∀ (i : Instr) (s t : State), exec i s = .next t →
    s.fault = 0x00#8 ∧ ∃ r : Response, t.responses = s.responses ++ [r] ∧ r.status = t.fault ∧ r.status.toNat ≤ 0x06 ∧
      (r.status ≠ 0x00#8 → r.data = .none) ∧
      (r.status = 0x00#8 →
        match i with
        | .construct _ => r.data = .none
        | .reset => r.data = .none
        | .add _ => r.data = .none
        | .finalize => ∃ h, r.data = .hex h ∧ h.length = t.variant.toNat / 4 ∧ ∀ b ∈ h, IsHexDigit b
        | .hashBytes _ _ => ∃ h, r.data = .hex h ∧ h.length = t.variant.toNat / 4 ∧ ∀ b ∈ h, IsHexDigit b
        | .hashText _ _ _ => ∃ h, r.data = .hex h ∧ h.length = t.variant.toNat / 4 ∧ ∀ b ∈ h, IsHexDigit b
        | .readReg _ => ∃ v, r.data = .value v)

/-! ## READ_REG and the registers -/

/-- READ_REG (R185): its word, the value of each mapped register with nothing else changed, and BAD_REGISTER for every
reserved number. -/
def Obligations.ReadRegReturnsRegister : Prop :=
  ∀ s : State, s.Ready →
    (∀ n : RegNum, (encode (.readReg n)).word = (n.setWidth 32 <<< 8) ||| 0x20#32) ∧
    exec (.readReg 0x00#8) s = .next (s.responded (.value s.statusWord)) ∧
    exec (.readReg 0x01#8) s = .next (s.responded (.value (s.variant.setWidth 64))) ∧
    exec (.readReg 0x02#8) s = .next (s.responded (.value (BitVec.ofNat 64 (200 - 2 * (s.variant.toNat / 8))))) ∧
    exec (.readReg 0x03#8) s = .next (s.responded (.value (s.bufLen.setWidth 64))) ∧
    exec (.readReg 0x04#8) s = .next (s.responded (.value s.byteCount)) ∧
    exec (.readReg 0x05#8) s = .next (s.responded (.value (BitVec.ofNat 64 (s.variant.toNat / 8)))) ∧
    (∀ k : Fin 25, exec (.readReg (BitVec.ofNat 8 (0x20 + k))) s = .next (s.responded (.value s.lanes[k]))) ∧
    (∀ n : RegNum, (0x06 ≤ n.toNat ∧ n.toNat ≤ 0x1F) ∨ 0x39 ≤ n.toNat →
      exec (.readReg n) s = .next (s.faulted 0x05#8))

/-- STATUS (R29), read as register 0x00: bit 0 is SPENT, bit 1 is RESUMABLE, bits 63:2 read 0; after power-on bit 0 is
0 and bit 1 the parameter's value. -/
def Obligations.StatusFields : Prop :=
  (∀ s : State, s.Ready → exec (.readReg 0x00#8) s = .next (s.responded (.value s.statusWord))) ∧
  (∀ (s : State) (k : Nat), s.statusWord.getLsbD k =
    (if k = 0 then decide (s.phase = .spent)
     else if k = 1 then decide (s.config.finalizeMode = .resumable)
     else false)) ∧
  ∀ (c : Config) (cmds : List Command), (State.afterPowerOn c cmds).statusWord =
    (if c.finalizeMode = .resumable then 2#64 else 0#64)

/-- RATE and DIGEST_BYTES hold no storage: what the host reads is computed from VARIANT and is one of four values
each (R23, R24). -/
def Obligations.RateAndDigestBytesFollowVariant : Prop :=
  ∀ s : State, s.Ready →
    ∃ r d : Nat, r = 200 - 2 * (s.variant.toNat / 8) ∧ d = s.variant.toNat / 8 ∧
      (r = 144 ∨ r = 136 ∨ r = 104 ∨ r = 72) ∧ (d = 28 ∨ d = 32 ∨ d = 48 ∨ d = 64) ∧
      r + 2 * d = 200 ∧
      exec (.readReg 0x02#8) s = .next (s.responded (.value (BitVec.ofNat 64 r))) ∧
      exec (.readReg 0x05#8) s = .next (s.responded (.value (BitVec.ofNat 64 d)))

/-- Which commands write which register, over all commands (R20, R22, R25, R26, R27, R28, R240): VARIANT is written
with a legal width by CONSTRUCT and the entry points alone, READ_REG writes nothing, FINALIZE leaves BUF and BYTECOUNT,
RESET and CONSTRUCT leave BUF, and no command writes the parameters. -/
def Obligations.RegisterWriters : Prop :=
  ∀ (i : Instr) (s t : State), exec i s = .next t →
    (t.variant ≠ s.variant → LegalWidth t.variant ∧
      (i = .construct t.variant ∨ (∃ d, i = .hashBytes t.variant d) ∨ ∃ h x, i = .hashText t.variant h x)) ∧
    ((t.buf ≠ s.buf ∨ t.lanes ≠ s.lanes ∨ t.byteCount ≠ s.byteCount ∨ t.bufLen ≠ s.bufLen ∨ t.phase ≠ s.phase) →
      ∀ n, i ≠ .readReg n) ∧
    ((t.buf ≠ s.buf ∨ t.byteCount ≠ s.byteCount) → i ≠ .finalize) ∧
    (t.buf ≠ s.buf → i ≠ .reset ∧ ∀ v, i ≠ .construct v) ∧
    (t.phase ≠ s.phase → ∀ d, i ≠ .add d) ∧
    t.config = s.config ∧ t.powerOn = s.powerOn

/-! ## The permutation engine -/

/-- `rotl` (R10): the formula for amounts 1 to 63, the identity for 0 (the spec's own choice D23), and bit by bit a
rotation. -/
def Obligations.RotateLeft : Prop :=
  ∀ (x : Lane) (n : Nat), n < 64 →
    (n = 0 → rotl x n = x) ∧ (0 < n → rotl x n = (x <<< n) ||| (x >>> (64 - n))) ∧
    ∀ i, i < 64 → (rotl x n).getLsbD i = x.getLsbD ((i + 64 - n) % 64)

/-- THETA (R101): every lane takes its column's term, computed from the lanes at entry, and a state whose column
parities are all 0 is left as it is. -/
def Obligations.ThetaStep : Prop :=
  ∀ S : Lanes,
    let C := fun x => laneAt S x ^^^ laneAt S (x + 5) ^^^ laneAt S (x + 10) ^^^ laneAt S (x + 15) ^^^ laneAt S (x + 20)
    (∀ x y, x < 5 → y < 5 → laneAt (theta S) (5 * y + x) =
      laneAt S (5 * y + x) ^^^ (C ((x + 4) % 5) ^^^ rotl (C ((x + 1) % 5)) 1)) ∧
    ((∀ x, x < 5 → C x = 0#64) → theta S = S)

/-- RHO+PI (R102, whose destination formula and offsets the spec marks as general knowledge): the lane at (x, y),
rotated, is at (y, 2x+3y), and every index is some lane's destination. -/
def Obligations.RhoPiStep : Prop :=
  (∀ (S : Lanes) (x y : Nat), x < 5 → y < 5 →
    laneAt (rhoPi S) (5 * ((2 * x + 3 * y) % 5) + y) = rotl (laneAt S (5 * y + x)) (rot (5 * y + x))) ∧
  ∀ k, k < 25 → ∃ x y, x < 5 ∧ y < 5 ∧ 5 * ((2 * x + 3 * y) % 5) + y = k

/-- The traversal form of R108, with its 24 pairs, gives the same lanes as R102 for every state (the tables of both
are marked as general knowledge in the spec). -/
def Obligations.RhoPiTraversalAgrees : Prop :=
  ∀ S : Lanes, rhoPiTraversal S = rhoPi S

/-- CHI (R104): every lane of a row is computed from the row as it was. -/
def Obligations.ChiStep : Prop :=
  ∀ (S : Lanes) (x y : Nat), x < 5 → y < 5 →
    laneAt (chi S) (5 * y + x) = laneAt S (5 * y + x) ^^^
      (~~~ laneAt S (5 * y + (x + 1) % 5) &&& laneAt S (5 * y + (x + 2) % 5))

/-- IOTA (R105): lane 0 takes the round constant and no other lane changes. -/
def Obligations.IotaStep : Prop :=
  ∀ (S : Lanes) (r : Nat), r < 24 →
    laneAt (iota r S) 0 = laneAt S 0 ^^^ roundConstant r ∧
    ∀ i, 1 ≤ i → i < 25 → laneAt (iota r S) i = laneAt S i

/-- The checks R103 and R106 give for their tables (both marked as general knowledge in the spec): the destinations
are the formula's, the offsets are the walk's, and the round constants are the LFSR's bits at 0, 1, 3, 7, 15, 31 and 63
with zeros elsewhere. -/
def Obligations.TablesMatchTheirChecks : Prop :=
  (∀ i : Fin 25, dest i = 5 * ((2 * (i % 5) + 3 * (i / 5)) % 5) + i / 5) ∧
  (∀ t : Fin 24, rot (5 * (walkAt t).2 + (walkAt t).1) = ((t.val + 1) * (t.val + 2) / 2) % 64) ∧
  rot 0 = 0 ∧
  (∀ (r : Fin 24) (k : Fin 64), (roundConstant r).getLsbD k =
    (match k.val with
     | 0 => lfsrBit (7 * r)
     | 1 => lfsrBit (1 + 7 * r)
     | 3 => lfsrBit (2 + 7 * r)
     | 7 => lfsrBit (3 + 7 * r)
     | 15 => lfsrBit (4 + 7 * r)
     | 31 => lfsrBit (5 + 7 * r)
     | 63 => lfsrBit (6 + 7 * r)
     | _ => false))

/-! ## The driver's and the formatter's operations -/

/-- ABSORB_BLOCK (R131, R41): byte k of a block of RATE bytes is XORed into bits `8*(k mod 8)+7 : 8*(k mod 8)` of lane
`k div 8`, the capacity lanes take nothing, and one permutation follows. -/
def Obligations.AbsorbBlockLittleEndian : Prop :=
  ∀ (v : VBits) (S : Lanes) (blk : List Byte), LegalWidth v →
    let rate := 200 - 2 * (v.toNat / 8)
    blk.length = rate →
    ∃ T : Lanes, absorbBlock rate S blk = permute T ∧
      (∀ k (hk : k < blk.length), (laneAt T (k / 8)).extractLsb' (8 * (k % 8)) 8 =
        (laneAt S (k / 8)).extractLsb' (8 * (k % 8)) 8 ^^^ blk[k]) ∧
      ∀ i, rate / 8 ≤ i → i < 25 → laneAt T i = laneAt S i

/-- PAD (R130): RATE bytes, the remainder, then 0x01, then zeros, with 0x80 ORed into the last byte; the last byte is
0x81 when the remainder has RATE - 1 bytes. -/
def Obligations.PadBlockBytes : Prop :=
  ∀ (v : VBits) (rem : List Byte), LegalWidth v →
    let rate := 200 - 2 * (v.toNat / 8)
    rem.length < rate →
    let P := padBlock rate rem
    P.length = rate ∧
    (∀ k (hk : k < rem.length), P[k]? = some rem[k]) ∧
    (rem.length + 1 < rate → P[rem.length]? = some 0x01#8 ∧ P[rate - 1]? = some 0x80#8) ∧
    (rem.length + 1 = rate → P[rate - 1]? = some 0x81#8) ∧
    (∀ k, rem.length < k → k + 1 < rate → P[k]? = some 0x00#8)

/-- EXTRACT (R160, R42): digest byte j is byte `j mod 8` of lane `j div 8`, and R161: at V = 224 the upper half of
lane 3 and every later lane are never output. -/
def Obligations.ExtractDigestBytes : Prop :=
  (∀ (T : Lanes) (n j : Nat), j < n →
    (extractDigest n T)[j]? = some ((laneAt T (j / 8)).extractLsb' (8 * (j % 8)) 8)) ∧
  (∀ (T : Lanes) (n : Nat), (extractDigest n T).length = n) ∧
  ∀ T U : Lanes, laneAt T 0 = laneAt U 0 → laneAt T 1 = laneAt U 1 → laneAt T 2 = laneAt U 2 →
    (laneAt T 3).setWidth 32 = (laneAt U 3).setWidth 32 → extractDigest 28 T = extractDigest 28 U

/-- FORMAT_DIGEST (R162, R163): two characters for each byte, the high nibble first, from '0' to '9' and 'a' to 'f'. -/
def Obligations.FormatDigestCharacters : Prop :=
  (∀ b : Byte, hex2 b =
    [Reference.at0 Reference.hexDigits (b.toNat / 16), Reference.at0 Reference.hexDigits (b.toNat % 16)]) ∧
  (∀ (n : Nat) (T : Lanes), (formatDigest n T).length = 2 * n ∧ ∀ b ∈ formatDigest n T, IsHexDigit b) ∧
  ∀ (v : VBits) (T : Lanes), LegalWidth v → formatDigest (v.toNat / 8) T = Reference.format v T

/-! ## Invariants and isolation -/

/-- R36 holds between commands, from every state in which it holds, and so do the codes of R200 and one response for
each command; a faulted block keeps them too. The clause on responses counts them against the command index, and holds
over RESET by the model's reading that RESET moves the index on, DEDUCED (notes/assumptions/17.md). -/
def Obligations.InvariantsKept : Prop :=
  ∀ s t : State, s.Inv → step s = .next t → t.Inv

/-- The invariants hold right after power-on reset, whatever the parameters are. -/
def Obligations.InvariantsHoldAtReset : Prop :=
  State.reset.Inv ∧ ∀ c cmds, (State.afterPowerOn c cmds).Inv

/-- The bytes of BUF from BUFLEN on are never visible: two states that differ in them alone answer alike, and their
successors differ in such bytes alone (R25, D22). -/
def Obligations.BytesBeyondBufLenInvisible : Prop :=
  ∀ s t : State, SameVisible s t → SameAnswer (step s) (step t)

/-- HASH_BYTES returns the same digest whatever the block held before, for blocks of either mode (R168). -/
def Obligations.DigestIgnoresEarlierState : Prop :=
  ∀ (s s' : State) (v : VBits) (data : List Byte), s.Ready → s'.Ready → LegalWidth v →
    ∃ t t' h, exec (.hashBytes v data) s = .next t ∧ exec (.hashBytes v data) s' = .next t' ∧
      t.responses = s.responses ++ [{ status := 0x00#8, data := .hex h }] ∧
      t'.responses = s'.responses ++ [{ status := 0x00#8, data := .hex h }]

/-! ## The whole permutation -/

/-- A round is THETA, RHO+PI, CHI and IOTA in this order (R107), and PERMUTE is the rounds 0 to 23 in increasing order,
each on the result of the one before (R100). -/
def Obligations.RoundsRunInOrder : Prop :=
  (∀ (S : Lanes) (r : Nat), keccakRound S r = iota r (chi (rhoPi (theta S)))) ∧
  ∀ f : Nat → Lanes,
    (∀ r, r < 24 → f (r + 1) = iota r (chi (rhoPi (theta (f r))))) → permute (f 0) = f 24

/-- The engine's permutation is the one written by lane coordinates, apart from it, for every state (R100 to R107). The
tables and the destination formula are general knowledge in the spec (notes/assumptions/14.md). -/
def Obligations.PermutationByCoordinates : Prop :=
  (∀ (S : Lanes) (r : Nat), r < 24 →
    keccakRound S r = Reference.iotaXY r (Reference.chiXY (Reference.rhoPiXY (Reference.thetaXY S)))) ∧
  ∀ S : Lanes, permute S = Reference.keccakF S
end

