-- ==== Sys2Proof/Laws/State.lean ====
section
/-! SUPPORT. What each named update of the state leaves in each field, so that no later proof unfolds a record
update. -/

namespace Sys2Proof.Machine

/-! ## Taking a fault (R204) -/

section RaiseFault
variable (c : FaultCode) (s : State)

@[simp] theorem raiseFault_lanes : (s.raiseFault c).lanes = s.lanes := rfl
@[simp] theorem raiseFault_variant : (s.raiseFault c).variant = s.variant := rfl
@[simp] theorem raiseFault_buf : (s.raiseFault c).buf = s.buf := rfl
@[simp] theorem raiseFault_bufLen : (s.raiseFault c).bufLen = s.bufLen := rfl
@[simp] theorem raiseFault_byteCount : (s.raiseFault c).byteCount = s.byteCount := rfl
@[simp] theorem raiseFault_phase : (s.raiseFault c).phase = s.phase := rfl
@[simp] theorem raiseFault_cmdIndex : (s.raiseFault c).cmdIndex = s.cmdIndex := rfl
@[simp] theorem raiseFault_config : (s.raiseFault c).config = s.config := rfl
@[simp] theorem raiseFault_pending : (s.raiseFault c).pending = s.pending := rfl
@[simp] theorem raiseFault_powerOn : (s.raiseFault c).powerOn = s.powerOn := rfl
@[simp] theorem raiseFault_responses :
    (s.raiseFault c).responses = s.responses ++ [{ status := c.code, data := .none }] := rfl

theorem raiseFault_fault : (s.raiseFault c).fault = if s.fault = 0x00#8 then c.code else s.fault := rfl

theorem raiseFault_fault_first (h : s.fault = 0x00#8) : (s.raiseFault c).fault = c.code := by
  simp [raiseFault_fault, h]

theorem code_ne_zero : c.code ≠ 0x00#8 := by cases c <;> decide

theorem code_le_six : c.code.toNat ≤ 0x06 := by cases c <;> decide

end RaiseFault

/-! ## Completing a command (R70, R72) -/

section Complete
variable (d : ResponseData) (s : State)

@[simp] theorem complete_lanes : (s.complete d).lanes = s.lanes := rfl
@[simp] theorem complete_variant : (s.complete d).variant = s.variant := rfl
@[simp] theorem complete_buf : (s.complete d).buf = s.buf := rfl
@[simp] theorem complete_bufLen : (s.complete d).bufLen = s.bufLen := rfl
@[simp] theorem complete_byteCount : (s.complete d).byteCount = s.byteCount := rfl
@[simp] theorem complete_phase : (s.complete d).phase = s.phase := rfl
@[simp] theorem complete_fault : (s.complete d).fault = s.fault := rfl
@[simp] theorem complete_cmdIndex : (s.complete d).cmdIndex = s.cmdIndex + 1 := rfl
@[simp] theorem complete_config : (s.complete d).config = s.config := rfl
@[simp] theorem complete_pending : (s.complete d).pending = s.pending.tail := rfl
@[simp] theorem complete_powerOn : (s.complete d).powerOn = s.powerOn := rfl
@[simp] theorem complete_responses :
    (s.complete d).responses = s.responses ++ [{ status := 0x00#8, data := d }] := rfl

end Complete

/-! ## ResetBody (R136) -/

section ResetBody
variable (s : State)

@[simp] theorem resetBody_lanes : (resetBody s).lanes = zeroLanes := rfl
@[simp] theorem resetBody_variant : (resetBody s).variant = s.variant := rfl
@[simp] theorem resetBody_buf : (resetBody s).buf = s.buf := rfl
@[simp] theorem resetBody_bufLen : (resetBody s).bufLen = 0#8 := rfl
@[simp] theorem resetBody_byteCount : (resetBody s).byteCount = 0#64 := rfl
@[simp] theorem resetBody_phase : (resetBody s).phase = .absorbing := rfl
@[simp] theorem resetBody_fault : (resetBody s).fault = s.fault := rfl
@[simp] theorem resetBody_cmdIndex : (resetBody s).cmdIndex = s.cmdIndex := rfl
@[simp] theorem resetBody_config : (resetBody s).config = s.config := rfl
@[simp] theorem resetBody_pending : (resetBody s).pending = s.pending := rfl
@[simp] theorem resetBody_responses : (resetBody s).responses = s.responses := rfl
@[simp] theorem resetBody_powerOn : (resetBody s).powerOn = s.powerOn := rfl

end ResetBody

/-! ## AddBody (R137): the fields its loop never writes -/

section AddByte
variable (s : State) (b : Byte)

@[simp] theorem addByte_variant : (addByte s b).variant = s.variant := by simp only [addByte]; split <;> rfl
@[simp] theorem addByte_byteCount : (addByte s b).byteCount = s.byteCount := by simp only [addByte]; split <;> rfl
@[simp] theorem addByte_phase : (addByte s b).phase = s.phase := by simp only [addByte]; split <;> rfl
@[simp] theorem addByte_fault : (addByte s b).fault = s.fault := by simp only [addByte]; split <;> rfl
@[simp] theorem addByte_cmdIndex : (addByte s b).cmdIndex = s.cmdIndex := by simp only [addByte]; split <;> rfl
@[simp] theorem addByte_config : (addByte s b).config = s.config := by simp only [addByte]; split <;> rfl
@[simp] theorem addByte_pending : (addByte s b).pending = s.pending := by simp only [addByte]; split <;> rfl
@[simp] theorem addByte_responses : (addByte s b).responses = s.responses := by simp only [addByte]; split <;> rfl
@[simp] theorem addByte_powerOn : (addByte s b).powerOn = s.powerOn := by simp only [addByte]; split <;> rfl
@[simp] theorem addByte_buf : (addByte s b).buf = s.buf.setIfInBounds s.bufLen.toNat b := by
  simp only [addByte]; split <;> rfl
@[simp] theorem addByte_rate : (addByte s b).rate = s.rate := by simp [State.rate]

end AddByte

/-- A field that no byte of an ADD writes is not written by the loop over the bytes. -/
theorem foldl_addByte_keeps {α : Type} (f : State → α) (hf : ∀ s b, f (addByte s b) = f s) (data : List Byte) :
    ∀ s, f (data.foldl addByte s) = f s := by
  induction data with
  | nil => intro s; rfl
  | cons b data ih => intro s; rw [List.foldl_cons, ih, hf]

section AddBody
variable (data : List Byte) (s : State)

@[simp] theorem addBody_variant : (addBody data s).variant = s.variant :=
  foldl_addByte_keeps State.variant addByte_variant data s
@[simp] theorem addBody_phase : (addBody data s).phase = s.phase :=
  foldl_addByte_keeps State.phase addByte_phase data s
@[simp] theorem addBody_fault : (addBody data s).fault = s.fault :=
  foldl_addByte_keeps State.fault addByte_fault data s
@[simp] theorem addBody_cmdIndex : (addBody data s).cmdIndex = s.cmdIndex :=
  foldl_addByte_keeps State.cmdIndex addByte_cmdIndex data s
@[simp] theorem addBody_config : (addBody data s).config = s.config :=
  foldl_addByte_keeps State.config addByte_config data s
@[simp] theorem addBody_pending : (addBody data s).pending = s.pending :=
  foldl_addByte_keeps State.pending addByte_pending data s
@[simp] theorem addBody_responses : (addBody data s).responses = s.responses :=
  foldl_addByte_keeps State.responses addByte_responses data s
@[simp] theorem addBody_powerOn : (addBody data s).powerOn = s.powerOn :=
  foldl_addByte_keeps State.powerOn addByte_powerOn data s
@[simp] theorem addBody_byteCount :
    (addBody data s).byteCount = s.byteCount + BitVec.ofNat 64 data.length := rfl
@[simp] theorem addBody_lanes : (addBody data s).lanes = (data.foldl addByte s).lanes := rfl
@[simp] theorem addBody_buf : (addBody data s).buf = (data.foldl addByte s).buf := rfl
@[simp] theorem addBody_bufLen : (addBody data s).bufLen = (data.foldl addByte s).bufLen := rfl
@[simp] theorem addBody_rate : (addBody data s).rate = s.rate := by simp [State.rate]

end AddBody

/-! ## FinalizeBody (R138) -/

section FinalizeBody
variable (s : State)

theorem finalizeBody_oneShot (h : s.config.finalizeMode = .oneShot) :
    finalizeBody s = { s with lanes := s.finalLanes, bufLen := 0#8, phase := .spent } := by
  simp [finalizeBody, h]

theorem finalizeBody_resumable (h : s.config.finalizeMode = .resumable) : finalizeBody s = s := by
  simp [finalizeBody, h]

@[simp] theorem finalizeBody_variant : (finalizeBody s).variant = s.variant := by
  simp only [finalizeBody]; split <;> rfl
@[simp] theorem finalizeBody_buf : (finalizeBody s).buf = s.buf := by simp only [finalizeBody]; split <;> rfl
@[simp] theorem finalizeBody_byteCount : (finalizeBody s).byteCount = s.byteCount := by
  simp only [finalizeBody]; split <;> rfl
@[simp] theorem finalizeBody_fault : (finalizeBody s).fault = s.fault := by simp only [finalizeBody]; split <;> rfl
@[simp] theorem finalizeBody_cmdIndex : (finalizeBody s).cmdIndex = s.cmdIndex := by
  simp only [finalizeBody]; split <;> rfl
@[simp] theorem finalizeBody_config : (finalizeBody s).config = s.config := by
  simp only [finalizeBody]; split <;> rfl
@[simp] theorem finalizeBody_pending : (finalizeBody s).pending = s.pending := by
  simp only [finalizeBody]; split <;> rfl
@[simp] theorem finalizeBody_responses : (finalizeBody s).responses = s.responses := by
  simp only [finalizeBody]; split <;> rfl
@[simp] theorem finalizeBody_powerOn : (finalizeBody s).powerOn = s.powerOn := by
  simp only [finalizeBody]; split <;> rfl

end FinalizeBody

end Sys2Proof.Machine
end

