-- ==== Sys2Proof/Laws/Ops.lean ====
section
/-! SUPPORT. What each shared operation can do, said once: the operand checks, `accept`, the byte and block
operations of the driver, the parts of the formatter. -/

namespace Sys2Proof.Machine

/-! ## Operand checks -/

theorem legal_iff (v : VBits) : legal v = true ↔ LegalWidth v := by
  simp [legal, LegalWidth, or_assoc]

theorem rateOf_cases {v : VBits} (h : LegalWidth v) :
    rateOf v = 144 ∨ rateOf v = 136 ∨ rateOf v = 104 ∨ rateOf v = 72 := by
  obtain rfl | rfl | rfl | rfl := h <;> decide

theorem rateOf_bounds {v : VBits} (h : LegalWidth v) : 72 ≤ rateOf v ∧ rateOf v ≤ 144 ∧ rateOf v % 8 = 0 := by
  obtain h | h | h | h := rateOf_cases h <;> omega

theorem textOutOfRange_iff (text : List CharCode) :
    textOutOfRange text = true ↔ ∃ c ∈ text, 0xFF < c := by
  simp [textOutOfRange]

theorem textToBytes_eq_none_iff (h : Bool) (text : List CharCode) :
    textToBytes h text = none ↔ ∃ c ∈ text, 0xFF < c := by
  rw [← textOutOfRange_iff, textToBytes]
  split <;> simp_all

/-! ## Readiness and the invariants of R36 -/

theorem invariantHolds_iff (s : State) :
    s.invariantHolds = true ↔
      LegalWidth s.variant ∧ s.bufLen.toNat < rateOf s.variant ∧
        (s.phase = .spent → s.config.finalizeMode = .oneShot) ∧ (s.phase = .spent → s.bufLen = 0#8) := by
  have hd : decide (s.bufLen.toNat < s.rate) = true ↔ s.bufLen.toNat < rateOf s.variant := decide_eq_true_iff
  rw [State.invariantHolds, Bool.and_eq_true, Bool.and_eq_true, Bool.and_eq_true, legal_iff, hd]
  cases s.phase <;> simp [and_assoc]

theorem ready_iff (s : State) : s.Ready ↔ s.fault = 0x00#8 ∧ s.invariantHolds = true := by
  rw [invariantHolds_iff]
  exact ⟨fun h => ⟨h.no_fault, h.variant_legal, h.bufLen_lt, h.spent_oneShot, h.spent_empty⟩,
    fun ⟨h0, h1, h2, h3, h4⟩ => ⟨h0, h1, h2, h3, h4⟩⟩

/-! ## `accept` -/

theorem accept_ready {s : State} (h : s.Ready) (body : State → Result) : accept s body = body s := by
  obtain ⟨h0, h1⟩ := (ready_iff s).mp h
  simp [accept, h0, h1]

theorem accept_halted {s : State} (h : s.fault ≠ 0x00#8) (body : State → Result) :
    accept s body = .fault (.halted s.fault) := by
  simp [accept, h]

theorem accept_breach {s : State} (h0 : s.fault = 0x00#8) (h : s.invariantHolds = false)
    (body : State → Result) : accept s body = raise .internalInvariant s := by
  simp [accept, h0, h]

/-- Everything an accepted command can answer. -/
theorem accept_next {s t : State} {body : State → Result} (h : accept s body = .next t) :
    s.fault = 0x00#8 ∧
      ((s.invariantHolds = false ∧ t = s.raiseFault .internalInvariant) ∨ (s.Ready ∧ body s = .next t)) := by
  by_cases h0 : s.fault = 0x00#8
  · cases hi : s.invariantHolds with
    | true =>
      have hr := (ready_iff s).mpr ⟨h0, hi⟩
      exact ⟨h0, .inr ⟨hr, accept_ready hr body ▸ h⟩⟩
    | false =>
      rw [accept_breach h0 hi] at h
      exact ⟨h0, .inl ⟨rfl, by simpa [raise] using h.symm⟩⟩
  · rw [accept_halted h0] at h
    cases h

/-! ## Lanes -/

@[simp] theorem laneAt_ofFn (f : Fin 25 → Lane) {i : Nat} (h : i < 25) :
    laneAt (Vector.ofFn f) i = f ⟨i, h⟩ := by
  simp [laneAt, h]

theorem laneAt_eq_getElem (S : Lanes) {i : Nat} (h : i < 25) : laneAt S i = S[i] := by
  simp [laneAt, h]

/-- Two lane files with equal lanes are equal. -/
theorem lanes_ext {S T : Lanes} (h : ∀ i, i < 25 → laneAt S i = laneAt T i) : S = T := by
  apply Vector.ext
  intro i hi
  rw [← laneAt_eq_getElem S hi, ← laneAt_eq_getElem T hi, h i hi]

@[simp] theorem laneAt_zeroLanes (i : Nat) : laneAt zeroLanes i = 0#64 := by
  simp only [laneAt, zeroLanes]
  by_cases h : i < 25 <;> simp [h]

theorem laneAt_set (S : Lanes) (j : Nat) (v : Lane) {i : Nat} (h : i < 25) :
    laneAt (S.setIfInBounds j v) i = if j = i then v else laneAt S i := by
  rw [laneAt_eq_getElem _ h, laneAt_eq_getElem _ h, Vector.getElem_setIfInBounds h]

/-! ## The driver -/

theorem remainder_length {s : State} (h : s.bufLen.toNat ≤ 144) : s.remainder.length = s.bufLen.toNat := by
  simp [State.remainder, h]

/-- A byte that fills the buffer: the block is absorbed and BUFLEN returns to 0 (R137). -/
theorem addByte_full {s : State} {b : Byte} (h : (s.bufLen + 1#8).toNat = s.rate) :
    addByte s b = { s with
      lanes := absorbBlock s.rate s.lanes ((s.buf.setIfInBounds s.bufLen.toNat b).toList.take s.rate)
      buf := s.buf.setIfInBounds s.bufLen.toNat b
      bufLen := 0#8 } := by
  simp only [addByte]
  rw [if_pos h]

/-- A byte that does not fill the buffer is only kept (R137). -/
theorem addByte_more {s : State} {b : Byte} (h : (s.bufLen + 1#8).toNat ≠ s.rate) :
    addByte s b = { s with buf := s.buf.setIfInBounds s.bufLen.toNat b, bufLen := s.bufLen + 1#8 } := by
  simp only [addByte]
  rw [if_neg h]

/-- Taking a byte commutes with giving a response: the loop reads no bookkeeping of the port. -/
theorem addByte_complete (s : State) (b : Byte) (d : ResponseData) :
    addByte (s.complete d) b = (addByte s b).complete d := by
  by_cases h : (s.bufLen + 1#8).toNat = s.rate
  · rw [addByte_full h, addByte_full (s := s.complete d) h]; rfl
  · rw [addByte_more h, addByte_more (s := s.complete d) h]; rfl

theorem addBody_complete (data : List Byte) (s : State) (d : ResponseData) :
    addBody data (s.complete d) = (addBody data s).complete d := by
  have key : ∀ (data : List Byte) (s : State),
      data.foldl addByte (s.complete d) = (data.foldl addByte s).complete d := by
    intro data
    induction data with
    | nil => intro s; rfl
    | cons b data ih => intro s; rw [List.foldl_cons, List.foldl_cons, addByte_complete, ih]
  simp only [addBody, key]
  rfl

/-- `AddBody` keeps BUFLEN below RATE: a buffer that fills is absorbed at once (R26, R207). -/
theorem addByte_bufLen_lt {s : State} (hr : 1 ≤ s.rate) (hr' : s.rate ≤ 144) (h : s.bufLen.toNat < s.rate)
    (b : Byte) : (addByte s b).bufLen.toNat < s.rate := by
  simp only [addByte]
  split
  · exact hr
  · next hne =>
    have : (s.bufLen + 1#8).toNat = s.bufLen.toNat + 1 := by
      rw [BitVec.toNat_add]; simp; omega
    simp only [this] at hne ⊢
    omega

theorem foldl_addByte_bufLen_lt (data : List Byte) :
    ∀ {s : State}, 1 ≤ s.rate → s.rate ≤ 144 → s.bufLen.toNat < s.rate →
      (data.foldl addByte s).bufLen.toNat < s.rate := by
  induction data with
  | nil => intro s _ _ h; exact h
  | cons b data ih =>
    intro s h1 h2 h
    have := ih (s := addByte s b) (by simpa using h1) (by simpa using h2)
      (by simpa using addByte_bufLen_lt h1 h2 h b)
    simpa using this

/-- The loop over two payloads in a row is the loop over their concatenation. -/
theorem foldl_addByte_append (a b : List Byte) (s : State) :
    (a ++ b).foldl addByte s = b.foldl addByte (a.foldl addByte s) := List.foldl_append

end Sys2Proof.Machine
end

