-- ==== Sys2Proof/Laws/Step.lean ====
section
/-! SUPPORT. What an instruction and a step can answer, said once (the arms of `exec`, the cases of `step`);
proofs about all instructions cite these and do not unfold a meaning. -/

namespace Sys2Proof.Machine

/-- What an instruction's body does to the block before the response, on a ready state: every case in which it
responds OK. -/
inductive Effect : Instr → State → State → ResponseData → Prop where
  | construct {v s} : LegalWidth v → Effect (.construct v) s (resetBody { s with variant := v }) .none
  | reset {s} : Effect .reset s (resetBody s) .none
  | add {data s} : s.phase = .absorbing → Effect (.add data) s (addBody data s) .none
  | finalize {s} : s.phase = .absorbing → Effect .finalize s (finalizeBody s) (.hex s.digest)
  | hashBytes {v data s} : LegalWidth v →
      Effect (.hashBytes v data) s (finalizeBody (addBody data (resetBody { s with variant := v })))
        (.hex (addBody data (resetBody { s with variant := v })).digest)
  | hashText {v h text data s} : LegalWidth v → textToBytes h text = some data →
      Effect (.hashText v h text) s (finalizeBody (addBody data (resetBody { s with variant := v })))
        (.hex (addBody data (resetBody { s with variant := v })).digest)
  | readReg {n r s} : registerOf n = some r → Effect (.readReg n) s s (.value (s.readRegister r))

/-- Every case in which an instruction raises a fault on a ready state (R203). -/
inductive Trap : Instr → State → FaultCode → Prop where
  | construct {v s} : ¬ LegalWidth v → Trap (.construct v) s .badVariant
  | add {data s} : s.phase = .spent → Trap (.add data) s .spentInstance
  | finalize {s} : s.phase = .spent → Trap .finalize s .spentInstance
  | hashBytes {v data s} : ¬ LegalWidth v → Trap (.hashBytes v data) s .badVariant
  | hashText {v h text s} : ¬ LegalWidth v → Trap (.hashText v h text) s .badVariant
  | hashTextRange {v h text s} : LegalWidth v → textToBytes h text = none →
      Trap (.hashText v h text) s .textCodeRange
  | readReg {n s} : registerOf n = none → Trap (.readReg n) s .badRegister

/-- On a ready state an instruction either has its effect or takes a fault. -/
theorem trap_or_effect (i : Instr) (s : State) :
    (∃ c, Trap i s c) ∨ ∃ u d, Effect i s u d := by
  cases i with
  | construct v =>
    by_cases hl : LegalWidth v
    · exact .inr ⟨_, _, .construct hl⟩
    · exact .inl ⟨_, .construct hl⟩
  | reset => exact .inr ⟨_, _, .reset⟩
  | add data =>
    cases hp : s.phase with
    | absorbing => exact .inr ⟨_, _, .add hp⟩
    | spent => exact .inl ⟨_, .add hp⟩
  | finalize =>
    cases hp : s.phase with
    | absorbing => exact .inr ⟨_, _, .finalize hp⟩
    | spent => exact .inl ⟨_, .finalize hp⟩
  | hashBytes v data =>
    by_cases hl : LegalWidth v
    · exact .inr ⟨_, _, .hashBytes hl⟩
    · exact .inl ⟨_, .hashBytes hl⟩
  | hashText v isHex text =>
    by_cases hl : LegalWidth v
    · cases ht : textToBytes isHex text with
      | none => exact .inl ⟨_, .hashTextRange hl ht⟩
      | some data => exact .inr ⟨_, _, .hashText hl ht⟩
    · exact .inl ⟨_, .hashText hl⟩
  | readReg n =>
    cases hn : registerOf n with
    | none => exact .inl ⟨_, .readReg hn⟩
    | some r => exact .inr ⟨_, _, .readReg hn⟩

/-- No instruction runs on a halted block (R204, R205). -/
theorem exec_halted (i : Instr) {s : State} (h : s.fault ≠ 0x00#8) :
    exec i s = .fault (.halted s.fault) := by
  cases i <;> simp only [exec, execConstruct, execReset, execAdd, execFinalize, execHashBytes, execHashText,
    execReadReg, accept_halted h]

/-- No instruction goes on from a breach of R36 (R207). -/
theorem exec_breach (i : Instr) {s : State} (h0 : s.fault = 0x00#8) (h : s.invariantHolds = false) :
    exec i s = .next (s.raiseFault .internalInvariant) := by
  cases i <;> simp only [exec, execConstruct, execReset, execAdd, execFinalize, execHashBytes, execHashText,
    execReadReg, accept_breach h0 h, raise]

/-- An instruction's effect is what it answers, from a ready state. -/
theorem exec_of_effect {i : Instr} {s u : State} {d : ResponseData} (hr : s.Ready) (h : Effect i s u d) :
    exec i s = .next (u.complete d) := by
  cases h with
  | construct hl => simp [exec, execConstruct, accept_ready hr, (legal_iff _).mpr hl, respond]
  | reset => simp [exec, execReset, accept_ready hr, respond]
  | add hp => simp [exec, execAdd, accept_ready hr, hp, respond]
  | finalize hp => simp [exec, execFinalize, accept_ready hr, hp, finalizeAndRespond, respond]
  | hashBytes hl =>
    simp [exec, execHashBytes, accept_ready hr, (legal_iff _).mpr hl, hashWith, finalizeAndRespond, respond]
  | hashText hl ht =>
    simp [exec, execHashText, accept_ready hr, (legal_iff _).mpr hl, ht, hashWith, finalizeAndRespond, respond]
  | readReg hn => simp [exec, execReadReg, accept_ready hr, hn, respond]

/-- An instruction that traps takes the fault, from a ready state. -/
theorem exec_of_trap {i : Instr} {s : State} {c : FaultCode} (hr : s.Ready) (h : Trap i s c) :
    exec i s = .next (s.raiseFault c) := by
  cases h with
  | construct hl => simp [exec, execConstruct, accept_ready hr, mt (legal_iff _).mp hl, raise]
  | add hp => simp [exec, execAdd, accept_ready hr, hp, raise]
  | finalize hp => simp [exec, execFinalize, accept_ready hr, hp, raise]
  | hashBytes hl => simp [exec, execHashBytes, accept_ready hr, mt (legal_iff _).mp hl, raise]
  | hashText hl => simp [exec, execHashText, accept_ready hr, mt (legal_iff _).mp hl, raise]
  | hashTextRange hl ht => simp [exec, execHashText, accept_ready hr, (legal_iff _).mpr hl, ht, raise]
  | readReg hn => simp [exec, execReadReg, accept_ready hr, hn, raise]

/-- The one inversion lemma for instructions. -/
theorem exec_next {i : Instr} {s t : State} (h : exec i s = .next t) :
    s.fault = 0x00#8 ∧
      ((s.invariantHolds = false ∧ t = s.raiseFault .internalInvariant) ∨
        (s.Ready ∧ ((∃ c, Trap i s c ∧ t = s.raiseFault c) ∨ ∃ u d, Effect i s u d ∧ t = u.complete d))) := by
  by_cases h0 : s.fault = 0x00#8
  · cases hi : s.invariantHolds with
    | false =>
      rw [exec_breach i h0 hi] at h
      exact ⟨h0, .inl ⟨rfl, by simpa using h.symm⟩⟩
    | true =>
      have hr := (ready_iff s).mpr ⟨h0, hi⟩
      refine ⟨h0, .inr ⟨hr, ?_⟩⟩
      obtain ⟨c, hc⟩ | ⟨u, d, hd⟩ := trap_or_effect i s
      · rw [exec_of_trap hr hc] at h
        exact .inl ⟨c, hc, by simpa using h.symm⟩
      · rw [exec_of_effect hr hd] at h
        exact .inr ⟨u, d, hd, by simpa using h.symm⟩
  · rw [exec_halted i h0] at h
    cases h

/-- The one inversion lemma for steps. -/
theorem step_next {s t : State} (h : step s = .next t) :
    (∃ cmds, s.powerOn = some cmds ∧ t = State.afterPowerOn s.config cmds) ∨
      (s.powerOn = none ∧ s.fault = 0x00#8 ∧
        ((s.pending = [] ∧ t = s) ∨
          ∃ c rest, s.pending = c :: rest ∧
            ((∃ i, decode s.config.charWidth c = .ok i ∧ exec i s = .next t) ∨
              ∃ e, decode s.config.charWidth c = .error e ∧
                ((s.Ready ∧ t = s.raiseFault .illegalCommand) ∨
                  (s.invariantHolds = false ∧ t = s.raiseFault .internalInvariant))))) := by
  simp only [step, advance] at h
  split at h
  · next cmds hp => exact .inl ⟨cmds, hp, by simpa using h.symm⟩
  · next hp =>
    split at h
    · cases h
    · next h0 =>
      refine .inr ⟨hp, by simpa using h0, ?_⟩
      cases hq : s.pending with
      | nil =>
        rw [State.nextCommand, hq] at h
        exact .inl ⟨rfl, by simpa [idle] using h.symm⟩
      | cons c rest =>
        rw [State.nextCommand, hq] at h
        simp only [List.head?_cons, runCommand] at h
        refine .inr ⟨c, rest, rfl, ?_⟩
        cases hd : decode s.config.charWidth c with
        | ok i => exact .inl ⟨i, rfl, by rw [hd] at h; exact h⟩
        | error e =>
          rw [hd] at h
          obtain ⟨_, ⟨hi, ht⟩ | ⟨hr, hb⟩⟩ := accept_next h
          · exact .inr ⟨e, rfl, .inr ⟨hi, ht⟩⟩
          · exact .inr ⟨e, rfl, .inl ⟨hr, by simpa [raise] using hb.symm⟩⟩

end Sys2Proof.Machine
end

