-- ==== Sys2Proof/Laws/Driver.lean ====
section
/-! SUPPORT. The driver's and the formatter's shared operations in terms of the pure functions of
Machine/Reference.lean: one lemma says once what each computes. -/

namespace Sys2Proof.Machine

/-! ## The vocabulary of claims -/

theorem raiseFault_eq_faulted (c : FaultCode) {s : State} (h : s.fault = 0x00#8) :
    s.raiseFault c = s.faulted c.code := by
  simp [State.raiseFault, State.faulted, h]

theorem complete_eq_responded (d : ResponseData) (s : State) : s.complete d = s.responded d := rfl

/-- An effect never touches the port's bookkeeping. -/
theorem Effect.keeps {i : Instr} {s u : State} {d : ResponseData} (h : Effect i s u d) :
    u.fault = s.fault ∧ u.cmdIndex = s.cmdIndex ∧ u.pending = s.pending ∧ u.responses = s.responses ∧
      u.config = s.config ∧ u.powerOn = s.powerOn := by
  cases h <;> simp

theorem textToBytes_of_le {text : List CharCode} (h : ∀ c ∈ text, c ≤ 0xFF) (isHex : Bool) :
    textToBytes isHex text = some (text.map (BitVec.ofNat 8)) := by
  have hr : textOutOfRange text = false := by
    rw [← Bool.not_eq_true, textOutOfRange_iff]; push Not; exact h
  simp [textToBytes, hr]
  intro a _
  rfl

theorem registerOf_eq_none_iff (n : RegNum) :
    registerOf n = none ↔ ¬ (n.toNat ≤ 0x05 ∨ (0x20 ≤ n.toNat ∧ n.toNat ≤ 0x38)) := by
  revert n; decide +kernel

/-! ## Absorbing a block -/

/-- Bit by bit, `le64` is its eight bytes, b0 lowest (R13). -/
theorem getLsbD_le64 (b0 b1 b2 b3 b4 b5 b6 b7 : Byte) {i : Nat} (hi : i < 64) :
    (le64 b0 b1 b2 b3 b4 b5 b6 b7).getLsbD i =
      (if i < 8 then b0.getLsbD i else if i < 16 then b1.getLsbD (i - 8)
       else if i < 24 then b2.getLsbD (i - 16) else if i < 32 then b3.getLsbD (i - 24)
       else if i < 40 then b4.getLsbD (i - 32) else if i < 48 then b5.getLsbD (i - 40)
       else if i < 56 then b6.getLsbD (i - 48) else b7.getLsbD (i - 56)) := by
  unfold le64
  simp only [BitVec.getLsbD_append]
  interval_cases i <;> simp

/-- Byte k of `le64` is the k-th byte it was given. -/
theorem extractLsb'_le64 (b : Nat → Byte) {k : Nat} (hk : k < 8) :
    (le64 (b 0) (b 1) (b 2) (b 3) (b 4) (b 5) (b 6) (b 7)).extractLsb' (8 * k) 8 = b k := by
  apply BitVec.eq_of_getLsbD_eq
  intro i hi
  rw [BitVec.getLsbD_extractLsb', getLsbD_le64 _ _ _ _ _ _ _ _ (by omega)]
  interval_cases k <;> interval_cases i <;> simp

theorem or_shifted_eq_le64 (b0 b1 b2 b3 b4 b5 b6 b7 : Byte) :
    0#64 ||| (b0.setWidth 64 <<< 0) ||| (b1.setWidth 64 <<< 8) ||| (b2.setWidth 64 <<< 16) |||
      (b3.setWidth 64 <<< 24) ||| (b4.setWidth 64 <<< 32) ||| (b5.setWidth 64 <<< 40) |||
      (b6.setWidth 64 <<< 48) ||| (b7.setWidth 64 <<< 56) = le64 b0 b1 b2 b3 b4 b5 b6 b7 := by
  apply BitVec.eq_of_getLsbD_eq
  intro k hk
  rw [getLsbD_le64 _ _ _ _ _ _ _ _ hk]
  interval_cases k <;> simp

theorem laneAt_lanesOf (x : List Byte) {i : Nat} (hi : i < 25) :
    laneAt (Reference.lanesOf x) i = blockLane x i := by
  unfold Reference.lanesOf
  rw [laneAt_ofFn _ hi]
  exact or_shifted_eq_le64 _ _ _ _ _ _ _ _

theorem blockLane_beyond (x : List Byte) {i : Nat} (h : x.length ≤ 8 * i) : blockLane x i = 0#64 := by
  have hz : ∀ k, byteAt x (8 * i + k) = 0#8 := fun k => by
    rw [byteAt, List.getElem?_eq_none (by omega)]; rfl
  have h0 := hz 0
  rw [Nat.add_zero] at h0
  rw [blockLane, hz, hz, hz, hz, hz, hz, hz, h0]
  rfl

/-- ABSORB_BLOCK of a block of RATE bytes is the pure absorb of R140 (R131, R41). -/
theorem absorbBlock_eq_absorb {rate : Nat} (S : Lanes) {blk : List Byte} (h : blk.length = rate)
    (h8 : rate % 8 = 0) : absorbBlock rate S blk = Reference.absorb S blk := by
  unfold absorbBlock Reference.absorb
  refine congrArg permute (lanes_ext fun i hi => ?_)
  unfold xorBlock Reference.xorLanes
  rw [laneAt_ofFn _ hi, laneAt_ofFn _ hi]
  simp only [laneAt_lanesOf blk hi]
  split
  · rfl
  · rw [blockLane_beyond _ (by omega)]; simp

/-- PAD is the padded block written byte by byte (R130). -/
theorem padBlock_eq_pad {rate : Nat} {m : List Byte} (h : m.length < rate) :
    padBlock rate m = Reference.pad rate m := by
  have hl : (m ++ 0x01#8 :: List.replicate (rate - m.length - 1) 0x00#8).length = rate := by simp; omega
  apply List.ext_getElem?
  intro k
  unfold padBlock orLastByte Reference.pad Reference.padByte
  rw [List.getElem?_set, hl]
  by_cases hk : k < rate
  · simp only [List.getElem?_map, List.getElem?_range hk, Option.map_some]
    have key : (m ++ 0x01#8 :: List.replicate (rate - m.length - 1) 0x00#8)[k]? =
        some (if k < m.length then Reference.at0 m k else if k = m.length then 0x01#8 else 0x00#8) := by
      by_cases h1 : k < m.length
      · rw [List.getElem?_append_left h1]; simp [h1, Reference.at0]
      · by_cases h2 : k = m.length
        · simp [h2]
        · rw [List.getElem?_append_right (by omega), List.getElem?_cons, if_neg (by omega),
            List.getElem?_replicate]
          simp [h1, h2]; omega
    by_cases h1 : rate - 1 = k
    · have : k + 1 = rate := by omega
      rw [if_pos h1, if_pos (by omega), h1, byteAt, key, if_pos this]; rfl
    · have : ¬ k + 1 = rate := by omega
      rw [if_neg h1, key, if_neg this]; simp
  · rw [if_neg (by omega), List.getElem?_eq_none (by omega), List.getElem?_eq_none (by simp; omega)]

/-! ## Formatting a digest -/

theorem hex2_eq_hexDigits : ∀ b : Byte, hex2 b =
    [Reference.at0 Reference.hexDigits (b.toNat / 16), Reference.at0 Reference.hexDigits (b.toNat % 16)] := by
  decide +kernel

theorem hexDigit_isHexDigit : ∀ d : BitVec 4, IsHexDigit (hexDigit d) := by unfold IsHexDigit; decide

theorem hex2_isHexDigit (b : Byte) : ∀ c ∈ hex2 b, IsHexDigit c := by
  simp [hex2, hexDigit_isHexDigit]

theorem extract_eq_digestByte (T : Lanes) (j : Nat) :
    (laneAt T (j / 8) >>> (8 * (j % 8))).setWidth 8 = Reference.digestByte T j := by
  unfold Reference.digestByte
  apply BitVec.eq_of_getLsbD_eq
  intro i hi
  simp [hi]

theorem formatDigest_length (n : Nat) (T : Lanes) : (formatDigest n T).length = 2 * n := by
  unfold formatDigest extractDigest
  rw [List.length_flatMap]
  simp [hex2, Function.comp_def]
  omega

/-- FORMAT_DIGEST character by character (R162). -/
theorem formatDigest_eq_hexChar (n : Nat) (T : Lanes) :
    formatDigest n T = (List.range (2 * n)).map (Reference.hexChar T) := by
  induction n with
  | zero => rfl
  | succ n ih =>
    have hs : formatDigest (n + 1) T = formatDigest n T ++ hex2 (Reference.digestByte T n) := by
      simp [formatDigest, extractDigest, List.range_succ, extract_eq_digestByte]
    rw [hs, ih, show 2 * (n + 1) = 2 * n + 1 + 1 by omega, List.range_succ, List.range_succ]
    simp [hex2_eq_hexDigits, Reference.hexChar, show (2 * n + 1) / 2 = n by omega]

theorem formatDigest_eq_format {v : VBits} (h : LegalWidth v) (T : Lanes) :
    formatDigest (digestBytesOf v) T = Reference.format v T := by
  rw [formatDigest_eq_hexChar]
  unfold Reference.format
  congr 2
  obtain rfl | rfl | rfl | rfl := h <;> decide

/-! ## The blocks of a stream -/

theorem tail_length {rate : Nat} (m : List Byte) : (Reference.tail rate m).length = m.length % rate := by
  simp [Reference.tail]
  rw [Nat.mod_eq_sub_mul_div, Nat.mul_comm]

/-- A byte that completes no block goes to the tail. -/
theorem blocks_append_byte_more {rate : Nat} (hr : 0 < rate) (m : List Byte) (b : Byte)
    (h : m.length % rate + 1 ≠ rate) :
    Reference.blocks rate (m ++ [b]) = Reference.blocks rate m ∧
      Reference.tail rate (m ++ [b]) = Reference.tail rate m ++ [b] := by
  have hlt := Nat.mod_lt m.length hr
  have hd := Nat.div_add_mod m.length rate
  have hc : m.length / rate * rate = rate * (m.length / rate) := Nat.mul_comm _ _
  have hq : (m.length + 1) / rate = m.length / rate := by
    rw [show m.length + 1 = m.length % rate + 1 + rate * (m.length / rate) by omega,
      Nat.add_mul_div_left _ _ hr, Nat.div_eq_of_lt (by omega), Nat.zero_add]
  constructor
  · unfold Reference.blocks
    simp only [List.length_append, List.length_singleton, hq]
    apply List.map_congr_left
    intro j hj
    have hj := List.mem_range.mp hj
    have hle : (j + 1) * rate ≤ m.length / rate * rate := Nat.mul_le_mul_right _ hj
    rw [Nat.add_mul] at hle
    rw [List.drop_append_of_le_length (by omega), List.take_append_of_le_length (by simp; omega)]
  · unfold Reference.tail
    simp only [List.length_append, List.length_singleton, hq]
    rw [List.drop_append_of_le_length (by omega)]

/-- A byte that completes a block makes the tail and it the next block. -/
theorem blocks_append_byte_full {rate : Nat} (hr : 0 < rate) (m : List Byte) (b : Byte)
    (h : m.length % rate + 1 = rate) :
    Reference.blocks rate (m ++ [b]) = Reference.blocks rate m ++ [Reference.tail rate m ++ [b]] ∧
      Reference.tail rate (m ++ [b]) = [] ∧ (m.length + 1) % rate = 0 := by
  have hd := Nat.div_add_mod m.length rate
  have hc : m.length / rate * rate = rate * (m.length / rate) := Nat.mul_comm _ _
  have he : m.length + 1 = rate * (m.length / rate + 1) := by rw [Nat.mul_add]; omega
  have hq : (m.length + 1) / rate = m.length / rate + 1 := by rw [he, Nat.mul_div_cancel_left _ hr]
  refine ⟨?_, ?_, ?_⟩
  · unfold Reference.blocks
    simp only [List.length_append, List.length_singleton, hq]
    rw [List.range_succ, List.map_append]
    congr 1
    · apply List.map_congr_left
      intro j hj
      have hj := List.mem_range.mp hj
      have hle : (j + 1) * rate ≤ m.length / rate * rate := Nat.mul_le_mul_right _ hj
      rw [Nat.add_mul] at hle
      rw [List.drop_append_of_le_length (by omega), List.take_append_of_le_length (by simp; omega)]
    · simp only [List.map_cons, List.map_nil, Reference.tail]
      rw [List.drop_append_of_le_length (by omega), List.take_of_length_le (by simp; omega)]
  · unfold Reference.tail
    simp only [List.length_append, List.length_singleton, hq]
    apply List.drop_eq_nil_of_le
    rw [List.length_append, List.length_singleton, he, Nat.mul_comm]
  · rw [he]; simp

/-! ## AddBody, FinalizeBody and the entry points' common body -/

theorem rate_bounds {s : State} (hr : s.Ready) : 72 ≤ s.rate ∧ s.rate ≤ 144 ∧ s.rate % 8 = 0 :=
  rateOf_bounds hr.variant_legal

theorem buffered_length {s : State} (hr : s.Ready) : s.buffered.length = s.bufLen.toNat := by
  have hb := rate_bounds hr
  have h : s.bufLen.toNat < s.rate := hr.bufLen_lt
  simp [State.buffered]
  omega

/-- Everything AddBody's loop does (R137): the lanes take the complete blocks of the stream, BUF the tail. -/
theorem foldl_addByte_stream (data : List Byte) (s : State) (hv : LegalWidth s.variant)
    (hb : s.bufLen.toNat < s.rate) :
    let T := data.foldl addByte s
    let stream := s.buffered ++ data
    T.lanes = Reference.absorbAll s.rate s.lanes stream ∧ T.bufLen.toNat = stream.length % s.rate ∧
      T.buffered = Reference.tail s.rate stream := by
  have hrb : 72 ≤ s.rate ∧ s.rate ≤ 144 ∧ s.rate % 8 = 0 := rateOf_bounds hv
  induction data using List.reverseRecOn with
  | nil =>
    have hl : s.buffered.length = s.bufLen.toNat := by simp [State.buffered]; omega
    simp [hl, Nat.mod_eq_of_lt hb, Reference.absorbAll, Reference.blocks, Reference.tail, Nat.div_eq_of_lt hb]
  | append_singleton data b ih =>
    obtain ⟨h1, h2, h3⟩ := ih
    set T := data.foldl addByte s with hT
    set stream := s.buffered ++ data
    have he : s.buffered ++ (data ++ [b]) = stream ++ [b] := by simp [stream]
    rw [List.foldl_append, ← hT, List.foldl_cons, List.foldl_nil, he]
    have hTr : T.rate = s.rate := foldl_addByte_keeps State.rate (fun s b => by simp) data s
    have hlt : T.bufLen.toNat < s.rate := by rw [h2]; exact Nat.mod_lt _ (by omega)
    have hn : (T.bufLen + 1#8).toNat = stream.length % s.rate + 1 := by
      rw [BitVec.toNat_add, ← h2]; simp; omega
    have hbuf : (T.buf.setIfInBounds T.bufLen.toNat b).toList.take (T.bufLen.toNat + 1) = T.buffered ++ [b] := by
      have hin : T.bufLen.toNat < T.buf.toList.length := by rw [Vector.length_toList]; omega
      have h144 : T.bufLen.toNat < 144 := by omega
      simp only [Vector.toList_setIfInBounds, State.buffered]
      rw [List.take_add_one, List.take_set_of_le (by omega), List.getElem?_set_self hin]
      rfl
    simp only [addByte, hTr, hn]
    by_cases hf : stream.length % s.rate + 1 = s.rate
    · obtain ⟨g1, g2, g3⟩ := blocks_append_byte_full (by omega) stream b hf
      rw [if_pos hf]
      rw [h2, hf, h3] at hbuf
      refine ⟨?_, ?_, ?_⟩
      · simp only [Reference.absorbAll, g1, List.foldl_append, List.foldl_cons, List.foldl_nil] at h1 ⊢
        rw [h2, hbuf, absorbBlock_eq_absorb _ _ (by omega), h1]
        simp [tail_length, hf]
      · simp [g3]
      · simp [g2, State.buffered]
    · obtain ⟨g1, g2⟩ := blocks_append_byte_more (by omega) stream b hf
      rw [if_neg hf]
      refine ⟨?_, ?_, ?_⟩
      · simp only [Reference.absorbAll, g1] at h1 ⊢; exact h1
      · have := Nat.mod_lt stream.length (show 0 < s.rate by omega)
        simp only [hn, List.length_append, List.length_singleton]
        rw [Nat.add_mod, Nat.mod_eq_of_lt (show 1 < s.rate by omega),
          Nat.mod_eq_of_lt (show stream.length % s.rate + 1 < s.rate by omega)]
      · simp only [State.buffered, hn]
        rw [g2, ← h3, ← hbuf, h2]

theorem addByte_byteCount_update (s : State) (b : Byte) (x : BitVec 64) :
    addByte { s with byteCount := x } b = { addByte s b with byteCount := x } := by
  by_cases h : (s.bufLen + 1#8).toNat = s.rate
  · rw [addByte_full h, addByte_full (s := { s with byteCount := x }) h]; rfl
  · rw [addByte_more h, addByte_more (s := { s with byteCount := x }) h]

theorem foldl_addByte_byteCount_update (data : List Byte) (s : State) (x : BitVec 64) :
    data.foldl addByte { s with byteCount := x } = { data.foldl addByte s with byteCount := x } := by
  induction data generalizing s with
  | nil => rfl
  | cons b data ih => rw [List.foldl_cons, List.foldl_cons, addByte_byteCount_update]; exact ih _

theorem addBody_append (a b : List Byte) (s : State) : addBody (a ++ b) s = addBody b (addBody a s) := by
  have he : s.byteCount + BitVec.ofNat 64 (a ++ b).length =
      s.byteCount + BitVec.ofNat 64 a.length + BitVec.ofNat 64 b.length := by
    rw [List.length_append, BitVec.ofNat_add, BitVec.add_assoc]
  unfold addBody
  rw [foldl_addByte_byteCount_update b (a.foldl addByte s), he, List.foldl_append]

theorem complete_ready {s : State} (hr : s.Ready) (d : ResponseData) : (s.complete d).Ready :=
  ⟨hr.no_fault, hr.variant_legal, hr.bufLen_lt, hr.spent_oneShot, hr.spent_empty⟩

theorem addBody_ready {s : State} (hr : s.Ready) (ha : s.phase = .absorbing) (data : List Byte) :
    (addBody data s).Ready := by
  have hb := rate_bounds hr
  refine ⟨by simp [hr.no_fault], by simpa using hr.variant_legal, ?_, by simp [ha], by simp [ha]⟩
  have h := foldl_addByte_bufLen_lt data (s := s) (by omega) (by omega) hr.bufLen_lt
  rw [addBody_variant]
  exact h

theorem fresh_ready {s : State} (hr : s.Ready) {v : VBits} (hv : LegalWidth v) :
    (resetBody { s with variant := v }).Ready := by
  refine ⟨hr.no_fault, hv, ?_, by simp, by simp⟩
  have h := rateOf_bounds hv
  simp only [rateOf] at h
  simp
  omega

/-- The lanes FINALIZE formats (R138). -/
theorem finalLanes_eq_absorb {s : State} (hr : s.Ready) :
    s.finalLanes = Reference.absorb s.lanes (Reference.pad s.rate s.buffered) := by
  have hb := rate_bounds hr
  have hl : s.buffered.length < s.rate := by rw [buffered_length hr]; exact hr.bufLen_lt
  have hp : padBlock s.rate s.remainder = Reference.pad s.rate s.buffered := padBlock_eq_pad hl
  unfold State.finalLanes
  rw [hp]
  exact absorbBlock_eq_absorb _ (by simp [Reference.pad]) (by omega)

theorem digest_eq_format {s : State} (hr : s.Ready) : s.digest = Reference.format s.variant s.finalLanes :=
  formatDigest_eq_format hr.variant_legal _

/-- Everything the common body of the entry points does before it finalizes (R166). -/
theorem fresh_addBody {s : State} (hr : s.Ready) {v : VBits} (hv : LegalWidth v) (data : List Byte) :
    let u := addBody data (resetBody { s with variant := v })
    u.Ready ∧ u.lanes = Reference.absorbAll (rateOf v) zeroLanes data ∧
      u.bufLen.toNat = data.length % rateOf v ∧ u.buffered = Reference.tail (rateOf v) data ∧
      u.finalLanes = Reference.finalLanes v data ∧ u.digest = Reference.keccak v data := by
  intro u
  have h0 := fresh_ready hr hv
  obtain ⟨h1, h2, h3⟩ := foldl_addByte_stream data _ h0.variant_legal h0.bufLen_lt
  have hu : u.Ready := addBody_ready h0 rfl data
  have he : (resetBody { s with variant := v }).buffered = [] := by simp [State.buffered]
  rw [he, List.nil_append] at h1 h2 h3
  have hv' : u.variant = v := by simp [u]
  have hl : u.lanes = Reference.absorbAll (rateOf v) zeroLanes data := h1
  have ht : u.buffered = Reference.tail (rateOf v) data := h3
  have hf : u.finalLanes = Reference.finalLanes v data := by
    rw [finalLanes_eq_absorb hu, hl, ht, show u.rate = rateOf v by rw [State.rate, hv']]
    rfl
  refine ⟨hu, hl, h2, ht, hf, ?_⟩
  rw [digest_eq_format hu, hf, hv']
  rfl

end Sys2Proof.Machine
end

