-- ==== Sys2Proof/Laws/PerInstr.lean ====
section
/-! SUPPORT. The family `TableRow`, one lemma per constructor of Instr: the word the encoder gives an instruction
matches that instruction's row of R63's match and mask table, and no other row. -/

namespace Sys2Proof.Laws.TableRow

/-- The rows of the table an encoded word matches: exactly the one of the instruction's opcode. -/
def Statement (i : Instr) : Prop :=
  (tableRows.filter fun r => (encode i).word &&& r.mask == r.matchWord).map TableRow.opcode = [i.opcode]

theorem construct (vbits : VBits) : Statement (.construct vbits) := by
  revert vbits; unfold Statement; decide +kernel

theorem reset : Statement .reset := by unfold Statement; decide +kernel

theorem add (data : List Byte) : Statement (.add data) := by
  show (tableRows.filter fun r => 0x00000003#32 &&& r.mask == r.matchWord).map TableRow.opcode = [.add]
  decide +kernel

theorem finalize : Statement .finalize := by unfold Statement; decide +kernel

theorem hashBytes (vbits : VBits) (data : List Byte) : Statement (.hashBytes vbits data) := by
  have h : ∀ v : VBits, (tableRows.filter fun r => (encodeVBits v ||| 0x10#32) &&& r.mask == r.matchWord).map
      TableRow.opcode = [.hashBytes] := by decide +kernel
  exact h vbits

theorem hashText (vbits : VBits) (isHex : Bool) (text : List CharCode) :
    Statement (.hashText vbits isHex text) := by
  have h : ∀ (v : VBits) (b : Bool), (tableRows.filter fun r =>
      (encodeVBits v ||| encodeIsHex b ||| 0x11#32) &&& r.mask == r.matchWord).map
      TableRow.opcode = [.hashText] := by decide +kernel
  exact h vbits isHex

theorem readReg (regnum : RegNum) : Statement (.readReg regnum) := by
  revert regnum; unfold Statement; decide +kernel

end Sys2Proof.Laws.TableRow
end

