-- ==== Sys2Proof/Tests/Slice0.lean ====
section
/-! SUPPORT. Tests on fixed values, each with the vector or rule of spec/ its expected result comes from, and for
every statement with hypotheses a witness that concrete values meet them, one for each clause. -/

set_option maxRecDepth 10000

namespace Sys2Proof.Tests

open Sys2Proof Sys2Proof.Machine

/-! ## Helpers -/

/-- A block of width `v` in mode `m` with `k` bytes buffered. -/
def block (m : FinalizeMode) (v : VBits) (k : Nat) : State :=
  { State.afterPowerOn ⟨m, 16⟩ [] with
    variant := v
    buf := Vector.ofFn fun i => BitVec.ofNat 8 i
    bufLen := BitVec.ofNat 8 k
    byteCount := BitVec.ofNat 64 k }

/-- A spent ONE_SHOT block of width `v`. -/
def spentBlock (v : VBits) : State := { block .oneShot v 0 with phase := .spent }

/-- A block whose fault has code `c`, with its response. -/
def haltedBlock (c : Byte) : State := State.reset.faulted c

/-- A block that breaches R36. -/
def brokenBlock : State := { State.reset with variant := 300#10 }

/-- The next state of an answer. -/
def nextOf : Result → Option State
  | .next s => some s
  | .fault _ => none
  | .refused _ => none

/-- The last response of an answer. -/
def reply (r : Result) : Option (Byte × ResponseData) :=
  (nextOf r).bind fun s => s.responses.getLast?.map fun x => (x.status, x.data)

/-- The answer to a command issued to `s`, by one step. -/
def send (w : Word) (p : Payload) (s : State) : Result := step (s.issue ⟨w, p⟩)

/-- The answer's response, FAULT, VARIANT, BUFLEN and BYTECOUNT. -/
def summary (r : Result) : Option (Byte × VBits × BitVec 8 × BitVec 64 × Phase) :=
  (nextOf r).map fun s => (s.fault, s.variant, s.bufLen, s.byteCount, s.phase)

def ascii (text : String) : List Byte := text.toList.map fun c => BitVec.ofNat 8 c.toNat

/-- The lane file with the given lanes at the given indices and 0 elsewhere. -/
def sparse (l : List (Nat × Lane)) : Lanes := Vector.ofFn fun i => (l.lookup i.val).getD 0#64

theorem ready_of {s : State} (h : s.fault = 0x00#8 ∧ s.invariantHolds = true) : s.Ready := (ready_iff s).mpr h

/-! ## Well-formedness (R64) -/

theorem test_wf_refuses_wide_code : Instr.wf 16 (.hashText 256#10 false [0x61, 0x10000]) = false := by decide
theorem test_wf_accepts_widest_code : Instr.wf 16 (.hashText 256#10 true [0xFFFF]) = true := by decide
theorem test_wf_follows_char_width : Instr.wf 8 (.hashText 256#10 true [0x100]) = false := by decide

/-! ## Decoding: words written out from R61 and R63; the words are those of R69 and 95_test_vectors.md -/

theorem test_decode_construct : decode 16 ⟨0b00000010000000000000000000000001#32, .empty⟩ = .ok (.construct 512#10) :=
  rfl
theorem test_decode_construct_all_vbits : decode 16 ⟨0x03FF0001#32, .empty⟩ = .ok (.construct 1023#10) := rfl
theorem test_decode_reset : decode 16 ⟨0b00000000000000000000000000000010#32, .empty⟩ = .ok .reset := rfl
theorem test_decode_add : decode 16 ⟨0b00000000000000000000000000000011#32, .bytes [0x61#8]⟩ = .ok (.add [0x61#8]) :=
  rfl
theorem test_decode_finalize : decode 16 ⟨0b00000000000000000000000000000100#32, .chars []⟩ = .ok .finalize := rfl
theorem test_decode_hash_bytes :
    decode 16 ⟨0b00000000111000000000000000010000#32, .bytes [0xFF#8]⟩ = .ok (.hashBytes 224#10 [0xFF#8]) := rfl
theorem test_decode_hash_text :
    decode 16 ⟨0b00000001100000000000000100010001#32, .chars [0x100]⟩ = .ok (.hashText 384#10 true [0x100]) := rfl
theorem test_decode_hash_text_no_hex :
    decode 16 ⟨0x01000011#32, .empty⟩ = .ok (.hashText 256#10 false []) := rfl
theorem test_decode_read_reg : decode 16 ⟨0b00000000000000000011100000100000#32, .empty⟩ = .ok (.readReg 0x38#8) := rfl
/-- V-X1. -/
theorem test_decode_rejects_unassigned : decode 16 ⟨0x00000012#32, .empty⟩ = .error .unassignedOpcode := rfl
/-- V-X1: FINALIZE with reserved bits 24 and 8. -/
theorem test_decode_rejects_reserved : decode 16 ⟨0x01000104#32, .empty⟩ = .error .reservedBitSet := rfl
/-- V-X1: the wrong payload kind for ADD and for HASH_TEXT. -/
theorem test_decode_rejects_kind : decode 16 ⟨0x00000003#32, .chars [0x61]⟩ = .error .wrongPayloadKind ∧
    decode 16 ⟨0x01000011#32, .bytes [0x61#8, 0x62#8]⟩ = .error .wrongPayloadKind := ⟨rfl, rfl⟩
/-- R63: no word matches two rows, since no two rows agree where both masks look. -/
theorem test_table_rows_disjoint : tableRows.Pairwise fun a b =>
    a.matchWord &&& (a.mask &&& b.mask) ≠ b.matchWord &&& (a.mask &&& b.mask) := by decide
theorem test_decode_table_word : decodeTableWord 32 0x01000010 = some (.hashBytes 256#10 []) ∧
    decodeTableWord 32 0x00000000 = none ∧ decodeTableWord 8 0x02 = some .reset := ⟨rfl, rfl, rfl⟩

/-! ## The assembler (R68) -/

theorem test_asm_read_reg : Asm.assemble "READ_REG LANE24" = some ⟨0x00003820#32, .empty⟩ := by decide
theorem test_asm_add : Asm.assemble "ADD 61 62 63" = some ⟨0x00000003#32, .bytes [0x61#8, 0x62#8, 0x63#8]⟩ := by
  decide
theorem test_asm_pseudo :
    Asm.assemble "KECCAK256_RAWTEXT [0x61 0x100]" = some ⟨0x01000111#32, .chars [0x61, 0x100]⟩ := by decide
/-- Log entry 13: leading zeros are accepted, and a bracketed code needs its prefix. -/
theorem test_asm_choices : Asm.assemble "READ_REG LANE07" = some ⟨0x00002720#32, .empty⟩ ∧
    Asm.assemble "CONSTRUCT 0256" = some ⟨0x01000001#32, .empty⟩ ∧
    Asm.assemble "KECCAK256_TEXT [61]" = none := by decide
theorem test_asm_empty_string : Asm.assemble "HASH_BYTES 256, \"\"" = some ⟨0x01000010#32, .bytes []⟩ := by decide

/-! ## The engine -/

/-- V-E1, first row. -/
theorem test_theta_one : theta (sparse [(0, 1#64)]) =
    sparse [(0, 1#64), (1, 1#64), (6, 1#64), (11, 1#64), (16, 1#64), (21, 1#64),
      (4, 2#64), (9, 2#64), (14, 2#64), (19, 2#64), (24, 2#64)] := by decide +kernel
/-- V-E2, first and third rows. -/
theorem test_rho_pi : rhoPi (sparse [(1, 1#64)]) = sparse [(10, 2#64)] ∧
    rhoPi (sparse [(2, 1#64)]) = sparse [(20, 0x4000000000000000#64)] := by decide +kernel
/-- V-E3, first row. -/
theorem test_chi : chi (sparse [(0, 1#64), (1, 2#64), (2, 4#64), (3, 8#64), (4, 16#64)]) =
    sparse [(0, 5#64), (1, 10#64), (2, 20#64), (3, 9#64), (4, 18#64)] := by decide +kernel
/-- V-E4. -/
theorem test_iota : iota 23 zeroLanes = sparse [(0, 0x8000000080008008#64)] := by decide +kernel
/-- V-E5: round 0 on a state whose lane 0 is 1. -/
theorem test_round_zero : keccakRound (sparse [(0, 1#64)]) 0 =
    sparse [(1, 0x0000100000000000#64), (2, 0x0000000000008000#64), (3, 0x0000000000000001#64),
      (4, 0x0000100000008000#64), (6, 0x0000200000200000#64), (8, 0x0000200000000000#64),
      (9, 0x0000000000200000#64), (10, 0x0000000000000002#64), (11, 0x0000000000000200#64),
      (13, 0x0000000000000202#64), (15, 0x0000000010000400#64), (17, 0x0000000000000400#64),
      (18, 0x0000000010000000#64), (20, 0x0000010000000000#64), (22, 0x0000010000000004#64),
      (24, 0x0000000000000004#64)] := by decide +kernel

/-- V-E5 for the round written by coordinates: lanes 1 and 24. -/
theorem test_round_by_coordinates :
    laneAt (Reference.rounds 1 (sparse [(0, 1#64)])) 1 = 0x0000100000000000#64 ∧
    laneAt (Reference.rounds 1 (sparse [(0, 1#64)])) 24 = 0x0000000000000004#64 := by decide +kernel

/-! ## The driver's and the formatter's operations -/

/-- V-D1: the padded block of "abc" at V = 256, as lanes. -/
theorem test_pad_abc : (List.range 17).map (blockLane (padBlock 136 (ascii "abc"))) =
    0x0000000001636261#64 :: List.replicate 15 0#64 ++ [0x8000000000000000#64] := by decide +kernel
/-- V-D1: pattern 135 at V = 256. -/
theorem test_pad_rate_minus_one :
    blockLane (padBlock 136 ((List.range 135).map (BitVec.ofNat 8))) 16 = 0x8186858483828180#64 := by decide +kernel
/-- V-F2: digest bytes 24 to 27 at V = 224. -/
theorem test_extract_224 :
    (extractDigest 28 (sparse [(3, 0x028ED3E4BD0A39B7#64)])).drop 24 = [0xB7#8, 0x39#8, 0x0A#8, 0xBD#8] := by
  decide +kernel
/-- V-F3. -/
theorem test_hex2 : hex2 0x4E#8 = [0x34#8, 0x65#8] ∧ hex2 0x0A#8 = [0x30#8, 0x61#8] ∧
    hex2 0xFF#8 = [0x66#8, 0x66#8] := by decide

/-! ## The commands: at most two each -/

/-- V-D4. -/
theorem test_construct_512 : summary (send 0x02000001#32 .empty (spentBlock 256#10)) =
    some (0x00#8, 512#10, 0#8, 0#64, .absorbing) := by decide
/-- V-X3 and P7: nothing but FAULT is written. -/
theorem test_construct_300 : summary (send 0x012C0001#32 .empty (block .oneShot 256#10 3)) =
    some (0x02#8, 256#10, 3#8, 3#64, .absorbing) := by decide
/-- V-D4: RESET keeps VARIANT. -/
theorem test_reset_spent : summary (send 0x00000002#32 .empty (spentBlock 384#10)) =
    some (0x00#8, 384#10, 0#8, 0#64, .absorbing) := by decide
/-- V-X1: RESET with reserved bit 8. -/
theorem test_reset_reserved_bit : reply (send 0x00000102#32 .empty State.reset) = some (0x01#8, .none) := by decide
/-- P1, command 1, and P6: ADD appends after the buffered bytes. -/
theorem test_add_c : ((nextOf (send 0x00000003#32 (.bytes [0x63#8])
      { State.reset with bufLen := 2#8, buf := (State.reset.buf.set 0 0x61#8).set 1 0x62#8 })).map State.buffered) =
    some (ascii "abc") := by decide +kernel
/-- V-X2: the phase check comes before the length. -/
theorem test_add_empty_spent : reply (send 0x00000003#32 .empty (spentBlock 256#10)) = some (0x03#8, .none) := by
  decide
/-- V-X2: a second FINALIZE in ONE_SHOT mode. -/
theorem test_finalize_spent : reply (send 0x00000004#32 .empty (spentBlock 256#10)) = some (0x03#8, .none) := by decide
/-- P6, command 6: FINALIZE in RESUMABLE mode leaves the stream. -/
theorem test_finalize_resumable : summary (send 0x00000004#32 .empty (block .resumable 256#10 2)) =
    some (0x00#8, 256#10, 2#8, 2#64, .absorbing) := by decide
/-- V-X1: HASH_BYTES 1023. -/
theorem test_hash_bytes_1023 : reply (send 0x03FF0010#32 .empty State.reset) = some (0x02#8, .none) := by decide
/-- V-S2: the digest of "abc" (one whole permutation). -/
theorem test_hash_bytes_abc : reply (send 0x01000010#32 (.bytes [0x61#8, 0x62#8, 0x63#8]) State.reset) =
    some (0x00#8, .hex (ascii "4e03657aea45a94fc7d47ba826c8d667c0d1e6e33a64a036ec44f58fa12d6c45")) := by
  decide +kernel
/-- V-X1: a code above 0xFF. -/
theorem test_hash_text_wide : reply (send 0x01000011#32 (.chars [0x61, 0x100]) State.reset) = some (0x04#8, .none) := by
  decide
/-- V-X1: BAD_VARIANT beats TEXT_CODE_RANGE. -/
theorem test_hash_text_priority : reply (send 0x012C0011#32 (.chars [0x100]) State.reset) = some (0x02#8, .none) := by
  decide
/-- V-R1 and V-D4: BUFLEN, BYTECOUNT and RATE after ADD "abc", and STATUS of a fresh RESUMABLE block. -/
theorem test_read_reg : reply (send 0x00000320#32 .empty (block .oneShot 256#10 3)) = some (0x00#8, .value 3#64) ∧
    reply (send 0x00000220#32 .empty (block .oneShot 256#10 3)) = some (0x00#8, .value 136#64) ∧
    reply (send 0x00000020#32 .empty (block .resumable 256#10 0)) = some (0x00#8, .value 2#64) := by decide
/-- V-R1: the edges of the reserved ranges. -/
theorem test_read_reg_reserved : reply (send 0x00000620#32 .empty State.reset) = some (0x05#8, .none) ∧
    reply (send 0x00001F20#32 .empty State.reset) = some (0x05#8, .none) ∧
    reply (send 0x00003920#32 .empty State.reset) = some (0x05#8, .none) ∧
    reply (send 0x0000FF20#32 .empty State.reset) = some (0x05#8, .none) := by decide

/-! ## The port -/

/-- V-X3: no response after a fault, to RESET either. -/
theorem test_halted_reset : step ((haltedBlock 0x02#8).issue ⟨0x00000002#32, .empty⟩) = .fault (.halted 0x02#8) := rfl
/-- R240: power-on reset leaves the halt. -/
theorem test_power_on : summary (step { haltedBlock 0x02#8 with variant := 512#10, powerOn := some [] }) =
    some (0x00#8, 256#10, 0#8, 0#64, .absorbing) := by decide
/-- R66: an all-zero word faults, as the first command after reset. -/
theorem test_fetch_word_zero : reply (step (State.reset.withFetchWord 32 0)) = some (0x01#8, .none) := by decide

/-! ## Witnesses: concrete states and operands that meet the hypotheses of the statements -/

/-- `s` with one command to issue. -/
def withNext (w : Word) (p : Payload) (s : State) : State := { s with pending := [⟨w, p⟩] }

theorem block_oneShot_ready : (block .oneShot 256#10 135).Ready := ready_of (by decide)
theorem block_resumable_ready : (block .resumable 224#10 143).Ready := ready_of (by decide)
theorem block_narrow_ready : (block .oneShot 512#10 71).Ready := ready_of (by decide)
theorem spentBlock_ready : (spentBlock 384#10).Ready := ready_of (by decide)
theorem reset_inv : State.reset.Inv :=
  ⟨.inr (.inl rfl), by decide, by decide, by decide, by decide, by decide⟩
theorem haltedBlock_inv : (haltedBlock 0x05#8).Inv :=
  ⟨.inr (.inl rfl), by decide, by decide, by decide, by decide, by decide⟩

theorem witness_DecodeOfEncode : Instr.wf 16 (.hashText 1023#10 true [0, 0xFFFF]) = true ∧
    Instr.wf 16 (.readReg 0xFF#8) = true ∧ Instr.wf 16 (.construct 1023#10) = true ∧
    Instr.wf 0 (.add [0xFF#8]) = true := by decide

theorem witness_EncodeOfDecode :
    decode 16 ⟨0x03FF0111#32, .chars [0xFFFF]⟩ = .ok (.hashText 1023#10 true [0xFFFF]) ∧
      decode 16 ⟨0x0000FF20#32, .chars []⟩ = .ok (.readReg 0xFF#8) := ⟨rfl, rfl⟩

/-- One word for each row, its fields all ones, with an empty payload and one of the row's kind; for the last clause a
word, a payload of the wrong kind and a text with a code of `2^CHAR_WIDTH`, none of which a row takes. -/
theorem witness_PortObeysOpcodeTable :
    (block .oneShot 256#10 135).Ready ∧ (withNext 0x03FF0001#32 .empty (block .oneShot 256#10 135)).powerOn = none ∧
    0x03FF0001#32 &&& 0xFC00FFFF#32 = 0x00000001#32 ∧ 0x00000002#32 &&& 0xFFFFFFFF#32 = 0x00000002#32 ∧
    0x00000003#32 &&& 0xFFFFFFFF#32 = 0x00000003#32 ∧ 0x00000004#32 &&& 0xFFFFFFFF#32 = 0x00000004#32 ∧
    0x03FF0010#32 &&& 0xFC00FFFF#32 = 0x00000010#32 ∧ 0x03FF0111#32 &&& 0xFC00FEFF#32 = 0x00000011#32 ∧
    0x0000FF20#32 &&& 0xFFFF00FF#32 = 0x00000020#32 ∧ (Payload.chars []).isEmpty = true ∧
    (∀ c ∈ [0xFFFF], c < 2 ^ (block .oneShot 256#10 135).config.charWidth) ∧
    (0x04000001#32 &&& 0xFC00FFFF#32 ≠ 0x00000001#32 ∧ 0x04000001#32 &&& 0xFC00FFFF#32 ≠ 0x00000010#32 ∧
      0x04000001#32 &&& 0xFC00FEFF#32 ≠ 0x00000011#32 ∧ 0x04000001#32 &&& 0xFFFF00FF#32 ≠ 0x00000020#32) ∧
    (Payload.bytes [0x78#8]).isEmpty = false ∧
    ((Payload.chars [0x61, 0x10000]).isEmpty = false ∧
      ¬ ∀ c ∈ [0x61, 0x10000], c < 2 ^ (block .oneShot 256#10 135).config.charWidth) :=
  ⟨block_oneShot_ready, rfl, by decide, by decide, by decide, by decide, by decide, by decide, by decide, by decide,
    by decide, by decide, by decide, by decide⟩

theorem witness_StepRunsDecodedInstruction :
    (withNext 0x00002020#32 .empty State.reset).powerOn = none ∧
    (withNext 0x00002020#32 .empty State.reset).fault = 0x00#8 ∧
    (withNext 0x00002020#32 .empty State.reset).pending = ⟨0x00002020#32, .empty⟩ :: [] ∧
    decode (withNext 0x00002020#32 .empty State.reset).config.charWidth ⟨0x00002020#32, .empty⟩ =
      .ok (.readReg 0x20#8) := ⟨rfl, rfl, rfl, rfl⟩

theorem witness_PlacedWordIsRun :
    State.reset.fault = 0x00#8 ∧ decodeTableWord 32 0x00003820 = some (.readReg 0x38#8) := ⟨rfl, rfl⟩

theorem witness_HaltedBlockAcceptsNothing :
    (haltedBlock 0x06#8).fault ≠ 0x00#8 ∧ (haltedBlock 0x06#8).powerOn = none := by decide

theorem witness_IdleBlockKeepsState :
    (spentBlock 384#10).powerOn = none ∧ (spentBlock 384#10).fault = 0x00#8 ∧ (spentBlock 384#10).pending = [] :=
  ⟨rfl, rfl, rfl⟩

theorem witness_PowerOnResetsBlock :
    ((haltedBlock 0x02#8).fault ≠ 0x00#8 ∧ ∃ t, step { haltedBlock 0x02#8 with powerOn := some [] } = .next t) ∧
    ({ haltedBlock 0x02#8 with powerOn := some [⟨0x00000004#32, .empty⟩] } : State).powerOn =
      some [⟨0x00000004#32, .empty⟩] := ⟨⟨by decide, _, rfl⟩, rfl⟩

/-- A power-on reset of a halted block, and a fault on a block that had none. -/
theorem witness_OnlyPowerOnClearsFault :
    (∃ t, step { haltedBlock 0x02#8 with powerOn := some [] } = .next t ∧ (haltedBlock 0x02#8).fault ≠ 0x00#8) ∧
    ∃ t, step (withNext 0x00000000#32 .empty State.reset) = .next t ∧
      t.fault ≠ (withNext 0x00000000#32 .empty State.reset).fault :=
  ⟨⟨_, rfl, by decide⟩, ⟨_, rfl, by decide⟩⟩

/-- An idle step, a step that completes a command and a step that faults. -/
theorem witness_CommandIndexCountsCompletions :
    (∃ t, step State.reset = .next t) ∧ (∃ t, step (withNext 0x00000002#32 .empty State.reset) = .next t) ∧
    ∃ t, step (withNext 0x00000000#32 .empty State.reset) = .next t := ⟨⟨_, rfl⟩, ⟨_, rfl⟩, ⟨_, rfl⟩⟩

/-- A run of two commands with a third left, and a whole run from power-on reset. -/
theorem witness_NormalEndHasAllResponses :
    (∃ t, runSteps 2 (State.afterPowerOn ⟨.resumable, 16⟩
        [⟨0x00000002#32, .empty⟩, ⟨0x00003820#32, .empty⟩, ⟨0x00000000#32, .empty⟩]) = .next t ∧ t.fault = 0x00#8) ∧
    ∃ t, runSteps [(⟨0x02000001#32, .empty⟩ : Command), ⟨0x00000003#32, .bytes [0x61#8]⟩].length
        (State.afterPowerOn Config.default [⟨0x02000001#32, .empty⟩, ⟨0x00000003#32, .bytes [0x61#8]⟩]) = .next t ∧
      t.fault = 0x00#8 :=
  ⟨⟨_, rfl, rfl⟩, ⟨_, rfl, rfl⟩⟩

theorem witness_FaultsArePrecise :
    (∃ t, exec (.readReg 0xFF#8) State.reset = .next t ∧ t.fault ≠ 0x00#8) ∧
    ∃ t, step (withNext 0x012C0001#32 .empty (block .oneShot 256#10 135)) = .next t ∧ t.fault ≠ 0x00#8 :=
  ⟨⟨_, rfl, by decide⟩, ⟨_, rfl, by decide⟩⟩

theorem not_legal_boundaries :
    ¬ LegalWidth 0#10 ∧ ¬ LegalWidth 225#10 ∧ ¬ LegalWidth 257#10 ∧ ¬ LegalWidth 1023#10 := by
  unfold LegalWidth; decide

theorem witness_IllegalWidthRaisesBadVariant : (spentBlock 384#10).Ready ∧ ¬ LegalWidth 1023#10 :=
  ⟨spentBlock_ready, not_legal_boundaries.2.2.2⟩

/-- A spent block with the operands of every clause, and a FINALIZE that spends a block. -/
theorem witness_SpentInstanceRefusesInput :
    (spentBlock 384#10).Ready ∧ (spentBlock 384#10).phase = .spent ∧ LegalWidth 224#10 ∧
    (∀ c ∈ [0x00, 0xFF], c ≤ 0xFF) ∧ (0x05#8).toNat ≤ 0x05 ∧ (0x20 ≤ (0x20#8).toNat ∧ (0x38#8).toNat ≤ 0x38) ∧
    ∃ t, exec .finalize (block .oneShot 256#10 135) = .next t ∧ (block .oneShot 256#10 135).phase = .absorbing ∧
      t.phase = .spent :=
  ⟨spentBlock_ready, rfl, .inl rfl, by decide, by decide, by decide,
    ⟨_, exec_of_effect block_oneShot_ready (.finalize rfl), rfl, rfl⟩⟩

/-- A command for each clause of the priority list, on an absorbing and on a spent block. -/
theorem witness_FaultPriority :
    (withNext 0x00000012#32 .empty (block .oneShot 256#10 135)).Ready ∧
    (withNext 0x00000003#32 .empty (spentBlock 384#10)).Ready ∧ (spentBlock 384#10).phase = .spent ∧
    decode 16 ⟨0x00000012#32, .empty⟩ = .error .unassignedOpcode ∧
    decode 16 ⟨0x00E10001#32, .empty⟩ = .ok (.construct 225#10) ∧ ¬ LegalWidth 225#10 ∧
    decode 16 ⟨0x03FF0010#32, .empty⟩ = .ok (.hashBytes 1023#10 []) ∧ ¬ LegalWidth 1023#10 ∧
    decode 16 ⟨0x01010011#32, .chars [0x100]⟩ = .ok (.hashText 257#10 false [0x100]) ∧ ¬ LegalWidth 257#10 ∧
    decode 16 ⟨0x00000620#32, .empty⟩ = .ok (.readReg 0x06#8) ∧
    decode 16 ⟨0x00003920#32, .empty⟩ = .ok (.readReg 0x39#8) ∧
    decode 16 ⟨0x00000003#32, .empty⟩ = .ok (.add []) ∧ decode 16 ⟨0x00000004#32, .empty⟩ = .ok .finalize ∧
    decode 16 ⟨0x01000111#32, .chars [0x61, 0x100]⟩ = .ok (.hashText 256#10 true [0x61, 0x100]) ∧
    LegalWidth 256#10 ∧ ∃ k ∈ [0x61, 0x100], 0xFF < k :=
  ⟨ready_of (by decide), ready_of (by decide), rfl, rfl, rfl, not_legal_boundaries.2.1, rfl,
    not_legal_boundaries.2.2.2, rfl, not_legal_boundaries.2.2.1, rfl, rfl, rfl, rfl, rfl, .inr (.inl rfl),
    0x100, by decide, by decide⟩

/-- A state that breaches R36, and a step from a state that keeps it. -/
theorem witness_BreachRaisesInternalInvariant :
    (brokenBlock.fault = 0x00#8 ∧ ¬ brokenBlock.Ready) ∧
    State.reset.Inv ∧ State.reset.powerOn = none ∧ ∃ t, step State.reset = .next t := by
  refine ⟨⟨rfl, fun h => ?_⟩, reset_inv, rfl, _, rfl⟩
  have := ((ready_iff _).mp h).2
  revert this
  decide

theorem witness_ConstructStartsFreshInstance :
    (spentBlock 384#10).Ready ∧ LegalWidth 512#10 ∧ ¬ LegalWidth 0#10 :=
  ⟨spentBlock_ready, .inr (.inr (.inr rfl)), not_legal_boundaries.1⟩

theorem witness_ResetClearsInstance : (spentBlock 384#10).Ready ∧ (block .resumable 224#10 143).Ready :=
  ⟨spentBlock_ready, block_resumable_ready⟩

/-- A full buffer but for one byte, in both modes, and a spent block. -/
theorem witness_AddAbsorbsCompleteBlocks :
    ((block .oneShot 256#10 135).Ready ∧ (block .oneShot 256#10 135).phase = .absorbing) ∧
    ((block .resumable 224#10 143).Ready ∧ (block .resumable 224#10 143).phase = .absorbing) ∧
    (spentBlock 384#10).Ready ∧ (spentBlock 384#10).phase = .spent :=
  ⟨⟨block_oneShot_ready, rfl⟩, ⟨block_resumable_ready, rfl⟩, spentBlock_ready, rfl⟩

theorem witness_AddPermutesOncePerBlock :
    (block .oneShot 256#10 135).Ready ∧ (block .oneShot 256#10 135).phase = .absorbing ∧
    ∃ t, exec (.add [0x00#8]) (block .oneShot 256#10 135) = .next t :=
  ⟨block_oneShot_ready, rfl, _, exec_of_effect block_oneShot_ready (.add rfl)⟩

theorem witness_AddSplitIndependence :
    (block .oneShot 512#10 71).Ready ∧ (block .oneShot 512#10 71).phase = .absorbing := ⟨block_narrow_ready, rfl⟩

/-- A block of each mode, and a spent block. -/
theorem witness_FinalizeReturnsDigest :
    ((block .oneShot 256#10 135).Ready ∧ (block .oneShot 256#10 135).phase = .absorbing ∧
      (block .oneShot 256#10 135).config.finalizeMode = .oneShot) ∧
    ((block .resumable 224#10 143).Ready ∧ (block .resumable 224#10 143).phase = .absorbing ∧
      (block .resumable 224#10 143).config.finalizeMode = .resumable) ∧
    (spentBlock 384#10).Ready ∧ (spentBlock 384#10).phase = .spent :=
  ⟨⟨block_oneShot_ready, rfl, rfl⟩, ⟨block_resumable_ready, rfl, rfl⟩, spentBlock_ready, rfl⟩

theorem witness_FinalizeTwice :
    ((block .oneShot 512#10 71).Ready ∧ (block .oneShot 512#10 71).phase = .absorbing ∧
      (block .oneShot 512#10 71).config.finalizeMode = .oneShot) ∧
    (block .resumable 224#10 143).Ready ∧ (block .resumable 224#10 143).phase = .absorbing ∧
    (block .resumable 224#10 143).config.finalizeMode = .resumable :=
  ⟨⟨block_narrow_ready, rfl, rfl⟩, block_resumable_ready, rfl, rfl⟩

/-- A spent block and an absorbing one in the other mode, with legal widths and an illegal one. -/
theorem witness_HashBytesReturnsKeccak :
    ((spentBlock 384#10).Ready ∧ (spentBlock 384#10).config.finalizeMode = .oneShot ∧ LegalWidth 224#10) ∧
    ((block .resumable 224#10 143).Ready ∧ (block .resumable 224#10 143).config.finalizeMode = .resumable ∧
      LegalWidth 512#10) ∧ ¬ LegalWidth 1023#10 :=
  ⟨⟨spentBlock_ready, rfl, .inl rfl⟩, ⟨block_resumable_ready, rfl, .inr (.inr (.inr rfl))⟩,
    not_legal_boundaries.2.2.2⟩

/-- An illegal width, a code just above 0xFF, and the codes at the edges of the range. -/
theorem witness_HashTextHashesCharacterBytes :
    (spentBlock 384#10).Ready ∧ ¬ LegalWidth 257#10 ∧ LegalWidth 256#10 ∧ (∃ c ∈ [0x61, 0x100], 0xFF < c) ∧
    ∀ c ∈ [0x00, 0x80, 0xFF], c ≤ 0xFF :=
  ⟨spentBlock_ready, not_legal_boundaries.2.2.1, .inr (.inl rfl), ⟨0x100, by decide, by decide⟩, by decide⟩

theorem witness_TextNarrowsToBytes :
    (∃ c ∈ [0xFF, 0x100], 0xFF < c) ∧ ∀ c ∈ [0x00, 0xFF], c ≤ 0xFF := ⟨⟨0x100, by decide, by decide⟩, by decide⟩

theorem witness_HashBytesIsConstructAddFinalize : (spentBlock 384#10).Ready ∧ LegalWidth 384#10 :=
  ⟨spentBlock_ready, .inr (.inr (.inl rfl))⟩

theorem witness_StreamHashesToKeccak : (block .resumable 224#10 143).Ready ∧ LegalWidth 224#10 :=
  ⟨block_resumable_ready, .inl rfl⟩

/-- A response with a fault code, and an OK response of each kind. -/
theorem witness_ResponsesHaveTheirShape :
    (∃ t, exec (.construct 0#10) State.reset = .next t ∧ t.fault ≠ 0x00#8) ∧
    (∃ t, exec .reset State.reset = .next t ∧ t.fault = 0x00#8) ∧
    (∃ t, exec .finalize (block .oneShot 256#10 135) = .next t ∧ t.fault = 0x00#8) ∧
    ∃ t, exec (.readReg 0x38#8) State.reset = .next t ∧ t.fault = 0x00#8 :=
  ⟨⟨_, rfl, by decide⟩, ⟨_, rfl, rfl⟩, ⟨_, exec_of_effect block_oneShot_ready (.finalize rfl), rfl⟩, ⟨_, rfl, rfl⟩⟩

/-- The edges of the two reserved ranges. -/
theorem witness_ReadRegReturnsRegister : (spentBlock 384#10).Ready ∧
    (0x06 ≤ (0x06#8).toNat ∧ (0x06#8).toNat ≤ 0x1F) ∧ (0x06 ≤ (0x1F#8).toNat ∧ (0x1F#8).toNat ≤ 0x1F) ∧
    0x39 ≤ (0x39#8).toNat ∧ 0x39 ≤ (0xFF#8).toNat := ⟨spentBlock_ready, by decide⟩

theorem witness_StatusFields : (spentBlock 384#10).Ready := spentBlock_ready

theorem witness_RateAndDigestBytesFollowVariant : (block .oneShot 512#10 71).Ready := block_narrow_ready

/-- A CONSTRUCT that changes VARIANT, an ADD that changes BUF, a FINALIZE that changes PHASE. -/
theorem witness_RegisterWriters :
    (∃ t, exec (.construct 512#10) State.reset = .next t ∧ t.variant ≠ State.reset.variant) ∧
    (∃ t, exec (.add [0x61#8]) State.reset = .next t ∧ t.buf ≠ State.reset.buf ∧
      t.byteCount ≠ State.reset.byteCount) ∧
    ∃ t, exec .finalize (block .oneShot 256#10 135) = .next t ∧ t.phase ≠ (block .oneShot 256#10 135).phase :=
  ⟨⟨_, rfl, by decide⟩, ⟨_, rfl, by decide +kernel, by decide⟩,
    ⟨_, exec_of_effect block_oneShot_ready (.finalize rfl), by decide⟩⟩

theorem witness_RotateLeft : 0 < 64 ∧ 63 < 64 := by decide

/-- A state that is not zero and whose column parities are all zero. -/
theorem witness_ThetaStep : 4 < 5 ∧ ∀ x : Fin 5,
    columnParity (sparse [(0, 1#64), (20, 1#64)]) x = 0#64 := by decide +kernel

theorem witness_RhoPiStep : 0 < 5 ∧ 4 < 5 ∧ 24 < 25 := by decide
theorem witness_ChiStep : 0 < 5 ∧ 4 < 5 := by decide
theorem witness_IotaStep : 23 < 24 ∧ 1 ≤ 24 ∧ 24 < 25 := by decide

theorem witness_AbsorbBlockLittleEndian :
    LegalWidth 224#10 ∧ (List.replicate 144 0xFF#8).length = 200 - 2 * ((224#10).toNat / 8) ∧ 143 < 144 ∧
    (18 ≤ 24 ∧ 24 < 25) := ⟨.inl rfl, by decide, by decide, by decide⟩

/-- The empty remainder, one byte short of the 0x81 case, and the 0x81 case. -/
theorem witness_PadBlockBytes :
    LegalWidth 512#10 ∧ (List.replicate 0 0xFF#8).length + 1 < 200 - 2 * ((512#10).toNat / 8) ∧
    (List.replicate 70 0xFF#8).length + 1 < 200 - 2 * ((512#10).toNat / 8) ∧
    (List.replicate 71 0xFF#8).length + 1 = 200 - 2 * ((512#10).toNat / 8) :=
  ⟨.inr (.inr (.inr rfl)), by decide, by decide, by decide⟩

/-- Two lane files that differ, in the upper half of lane 3 and beyond it, and give the same 224-bit digest. -/
theorem witness_ExtractDigestBytes : 27 < 28 ∧
    (let T := sparse [(3, 0xFFFFFFFF00000001#64)]; let U := sparse [(3, 1#64), (4, 1#64)]
     T ≠ U ∧ laneAt T 0 = laneAt U 0 ∧ laneAt T 1 = laneAt U 1 ∧ laneAt T 2 = laneAt U 2 ∧
      (laneAt T 3).setWidth 32 = (laneAt U 3).setWidth 32) := by decide +kernel

theorem witness_FormatDigestCharacters : LegalWidth 224#10 := .inl rfl

theorem withNext_inv (w : Word) (p : Payload) {s : State} (h : s.Inv) : (withNext w p s).Inv :=
  ⟨h.variant_legal, h.bufLen_lt, h.spent_oneShot, h.spent_empty, h.fault_code, h.one_response⟩

/-- From states that keep the invariants: an idle step, a RESET, an ADD, a command that faults, and a power-on reset of
a halted block. -/
theorem witness_InvariantsKept :
    (State.reset.Inv ∧ ∃ t, step State.reset = .next t) ∧
    ((withNext 0x00000002#32 .empty State.reset).Inv ∧
      ∃ t, step (withNext 0x00000002#32 .empty State.reset) = .next t ∧ t.cmdIndex = 1) ∧
    ((withNext 0x00000003#32 (.bytes [0x61#8]) State.reset).Inv ∧
      ∃ t, step (withNext 0x00000003#32 (.bytes [0x61#8]) State.reset) = .next t ∧ t.bufLen = 1#8) ∧
    ((withNext 0x012C0001#32 .empty State.reset).Inv ∧
      ∃ t, step (withNext 0x012C0001#32 .empty State.reset) = .next t ∧ t.fault = 0x02#8) ∧
    ({ haltedBlock 0x05#8 with powerOn := some [] } : State).Inv ∧
    ∃ t, step { haltedBlock 0x05#8 with powerOn := some [] } = .next t :=
  ⟨⟨reset_inv, _, rfl⟩, ⟨withNext_inv _ _ reset_inv, _, rfl, rfl⟩, ⟨withNext_inv _ _ reset_inv, _, rfl, rfl⟩,
    ⟨withNext_inv _ _ reset_inv, _, rfl, rfl⟩,
    ⟨haltedBlock_inv.1, haltedBlock_inv.2, haltedBlock_inv.3, haltedBlock_inv.4, haltedBlock_inv.5,
    haltedBlock_inv.6⟩, _, rfl⟩

/-- Two different states that agree below BUFLEN. -/
theorem witness_BytesBeyondBufLenInvisible :
    SameVisible (block .oneShot 256#10 135)
      { block .oneShot 256#10 135 with buf := (block .oneShot 256#10 135).buf.set 135 0xEE#8 } ∧
    block .oneShot 256#10 135 ≠
      { block .oneShot 256#10 135 with buf := (block .oneShot 256#10 135).buf.set 135 0xEE#8 } := by
  refine ⟨⟨rfl, rfl, rfl, fun k hk => ?_, rfl, rfl, rfl, rfl, rfl, rfl, rfl, rfl⟩, by decide +kernel⟩
  have hk : k < 135 := hk
  simp [show ¬ 135 = k by omega]

/-- The lanes after each round meet the recurrence. -/
theorem witness_RoundsRunInOrder : ∀ (S : Lanes) (r : Nat), r < 24 →
    ((List.range (r + 1)).foldl keccakRound S) =
      iota r (chi (rhoPi (theta ((List.range r).foldl keccakRound S)))) := by
  intro S r _
  rw [List.range_succ, List.foldl_append]
  rfl

theorem witness_PermutationByCoordinates : 0 < 24 ∧ 23 < 24 := by decide

theorem witness_DigestIgnoresEarlierState :
    (spentBlock 384#10).Ready ∧ (block .resumable 224#10 143).Ready ∧ LegalWidth 256#10 :=
  ⟨spentBlock_ready, block_resumable_ready, .inr (.inl rfl)⟩

end Sys2Proof.Tests
end

section
/-! PROOFS. Rotation of a lane (R10), the lanes each step of a round leaves (R101 to R105), and the engine's permutation
as the one written by lane coordinates (R11, R12, R100 to R107). -/

namespace Sys2Proof.Machine

/-! ## Rotation -/

@[simp] theorem rotl_zero (x : Lane) : rotl x 0 = x := rfl

theorem rotl_of_pos (x : Lane) {n : Nat} (h : 0 < n) : rotl x n = (x <<< n) ||| (x >>> (64 - n)) :=
  if_neg h.ne'

/-- On the amounts R10 allows, `rotl` is the rotation of the library. -/
theorem rotl_eq_rotateLeft (x : Lane) {n : Nat} (h : n < 64) : rotl x n = x.rotateLeft n := by
  rw [BitVec.rotateLeft_eq_rotateLeftAux_of_lt h]
  obtain rfl | hn := Nat.eq_zero_or_pos n
  · simp [BitVec.rotateLeftAux, BitVec.ushiftRight_eq_zero]
  · exact rotl_of_pos x hn

/-- A bit below the amount comes from the top of the lane, any other from `n` places lower. -/
theorem getLsbD_rotl (x : Lane) {n i : Nat} (hn : n < 64) (hi : i < 64) :
    (rotl x n).getLsbD i = x.getLsbD ((i + 64 - n) % 64) := by
  rw [rotl_eq_rotateLeft x hn, BitVec.getLsbD_rotateLeft, Nat.mod_eq_of_lt hn]
  by_cases h : i < n
  · have wrapped : (i + 64 - n) % 64 = 64 - n + i := by omega
    simp [h, wrapped]
  · have shifted : (i + 64 - n) % 64 = i - n := by omega
    simp [h, hi, shifted]

/-- Settles O37, by cases on whether the bit wraps around (`getLsbD_rotl`). -/
theorem rotateLeft : Obligations.RotateLeft := by
  intro x n hn
  refine ⟨?_, rotl_of_pos x, fun i hi => getLsbD_rotl x hn hi⟩
  rintro rfl
  exact rotl_zero x

/-! ## The engine's steps

The lanes each step of a round leaves (R101 to R105), the rule later proofs use in place of the step's
definition. -/

theorem laneAt_theta (S : Lanes) {i : Nat} (h : i < 25) :
    laneAt (theta S) i = laneAt S i ^^^ thetaTerm S (i % 5) :=
  laneAt_ofFn _ h

theorem laneAt_chi (S : Lanes) {i : Nat} (h : i < 25) :
    laneAt (chi S) i = laneAt S i ^^^
      (~~~ laneAt S (5 * (i / 5) + (i % 5 + 1) % 5) &&& laneAt S (5 * (i / 5) + (i % 5 + 2) % 5)) := by
  have own : 5 * (i / 5) + i % 5 % 5 = i := by omega
  refine (laneAt_ofFn _ h).trans ?_
  simp only [own]

theorem laneAt_iota (r : Nat) (S : Lanes) {i : Nat} (h : i < 25) :
    laneAt (iota r S) i = if i = 0 then laneAt S 0 ^^^ roundConstant r else laneAt S i := by
  rw [iota, laneAt_set S 0 _ h]
  simp only [eq_comm]

/-! ## RHO+PI -/

theorem rot_lt {i : Nat} (h : i < 25) : rot i < 64 := by
  have table : ∀ i < 25, rot i < 64 := by decide
  exact table i h

theorem dest_lt {i : Nat} (h : i < 25) : dest i < 25 := by
  have table : ∀ i < 25, dest i < 25 := by decide
  exact table i h

theorem dest_injective {i j : Nat} (hi : i < 25) (hj : j < 25) (h : dest i = dest j) : i = j := by
  have table : ∀ i < 25, ∀ j < 25, dest i = dest j → i = j := by decide
  exact table i hi j hj h

/-- Lane i's write survives the later ones, because no two lanes have the same destination. -/
theorem laneAt_foldl_dest (f : Nat → Lane) (S : Lanes) {n i : Nat} (hn : n ≤ 25) (hi : i < n) :
    laneAt ((List.range n).foldl (fun T j => T.setIfInBounds (dest j) (f j)) S) (dest i) = f i := by
  induction n with
  | zero => cases hi
  | succ n ih =>
    rw [List.range_succ, List.foldl_append, List.foldl_cons, List.foldl_nil,
      laneAt_set _ _ _ (dest_lt (by omega))]
    by_cases same : dest n = dest i
    · rw [if_pos same, dest_injective (by omega) (by omega) same]
    · have earlier : i ≠ n := fun h => same (by rw [h])
      rw [if_neg same, ih (by omega) (by omega)]

/-- RHO+PI takes lane i, rotated, to its destination (R102). -/
theorem laneAt_rhoPi_dest (S : Lanes) {i : Nat} (h : i < 25) :
    laneAt (rhoPi S) (dest i) = rotl (laneAt S i) (rot i) :=
  laneAt_foldl_dest (fun j => rotl (laneAt S j) (rot j)) S (Nat.le_refl 25) h

/-! ## The permutation by lane coordinates

The engine's steps are the steps written by lane coordinates (R11, R12, R100 to R107). Settles O53. -/

theorem laneAt_ofLanes (f : Nat → Nat → Lane) {i : Nat} (h : i < 25) :
    laneAt (Reference.ofLanes f) i = f (i % 5) (i / 5) :=
  laneAt_ofFn _ h

/-- Lane i is the lane at `(i % 5, i / 5)` (R12). -/
theorem lane_mod_div (S : Lanes) {i : Nat} (h : i < 25) : Reference.lane S (i % 5) (i / 5) = laneAt S i := by
  have index : 5 * (i / 5 % 5) + i % 5 % 5 = i := by omega
  rw [Reference.lane, index]

theorem lane_of_row_lt (S : Lanes) (x : Nat) {y : Nat} (h : y < 5) :
    Reference.lane S x y = laneAt S (5 * y + x % 5) := by
  rw [Reference.lane, Nat.mod_eq_of_lt h]

theorem parity_eq_columnParity (S : Lanes) (x : Nat) : Reference.parity S x = columnParity S (x % 5) := by
  simp [Reference.parity, List.range_succ, lane_of_row_lt, columnParity, Nat.add_comm]

theorem thetaXY_eq_theta (S : Lanes) : Reference.thetaXY S = theta S := by
  refine lanes_ext fun i hi => ?_
  rw [Reference.thetaXY, laneAt_ofLanes _ hi, laneAt_theta S hi, lane_mod_div S hi, thetaTerm,
    rotl_eq_rotateLeft _ (by decide), parity_eq_columnParity, parity_eq_columnParity, BitVec.xor_assoc]

/-- The lane that RHO+PI takes to index k, by coordinates: `(x, y)` is reached from `(x + 3y, x)` (R102). -/
theorem dest_source {k : Nat} (h : k < 25) : dest (5 * (k % 5) + (k % 5 + 3 * (k / 5)) % 5) = k := by
  have table : ∀ k < 25, dest (5 * (k % 5) + (k % 5 + 3 * (k / 5)) % 5) = k := by decide
  exact table k h

theorem rhoPiXY_eq_rhoPi (S : Lanes) : Reference.rhoPiXY S = rhoPi S := by
  refine lanes_ext fun k hk => ?_
  have source_lt : 5 * (k % 5) + (k % 5 + 3 * (k / 5)) % 5 < 25 := by omega
  calc laneAt (Reference.rhoPiXY S) k
      = (laneAt S (5 * (k % 5) + (k % 5 + 3 * (k / 5)) % 5)).rotateLeft
          (rot (5 * (k % 5) + (k % 5 + 3 * (k / 5)) % 5)) := by
        rw [Reference.rhoPiXY, laneAt_ofLanes _ hk, lane_of_row_lt S _ (by omega)]
    _ = laneAt (rhoPi S) (dest (5 * (k % 5) + (k % 5 + 3 * (k / 5)) % 5)) := by
        rw [laneAt_rhoPi_dest S source_lt, rotl_eq_rotateLeft _ (rot_lt source_lt)]
    _ = laneAt (rhoPi S) k := by rw [dest_source hk]

theorem chiXY_eq_chi (S : Lanes) : Reference.chiXY S = chi S := by
  refine lanes_ext fun i hi => ?_
  have row : i / 5 < 5 := by omega
  rw [Reference.chiXY, laneAt_ofLanes _ hi, laneAt_chi S hi, lane_mod_div S hi, lane_of_row_lt S _ row,
    lane_of_row_lt S _ row]

theorem iotaXY_eq_iota (r : Nat) (S : Lanes) : Reference.iotaXY r S = iota r S := by
  refine lanes_ext fun i hi => ?_
  have origin : (i % 5 = 0 ∧ i / 5 = 0) ↔ i = 0 := by omega
  rw [Reference.iotaXY, laneAt_ofLanes _ hi, laneAt_iota r S hi, lane_mod_div S hi]
  simp only [origin]
  rfl

theorem keccakRound_eq_coordinates (S : Lanes) (r : Nat) :
    keccakRound S r = Reference.iotaXY r (Reference.chiXY (Reference.rhoPiXY (Reference.thetaXY S))) := by
  rw [iotaXY_eq_iota, chiXY_eq_chi, rhoPiXY_eq_rhoPi, thetaXY_eq_theta, keccakRound]

theorem foldl_keccakRound_eq_rounds (n : Nat) (S : Lanes) :
    (List.range n).foldl keccakRound S = Reference.rounds n S := by
  induction n with
  | zero => rfl
  | succ n ih =>
    rw [List.range_succ, List.foldl_append, List.foldl_cons, List.foldl_nil, ih, Reference.rounds,
      keccakRound_eq_coordinates]

/-- Settles O53: each step agrees lane by lane, and the rounds by induction on how many have run. -/
theorem permutationByCoordinates : Obligations.PermutationByCoordinates :=
  ⟨fun S r _ => keccakRound_eq_coordinates S r, foldl_keccakRound_eq_rounds 24⟩

end Sys2Proof.Machine
end

section
/-! PROOFS. The state's invariants and observers (10_state.md R20 to R36): what a step can lead to, said once by its
kinds; the invariants of R36 over every step; FAULT and the command index; the registers each command writes; STATUS,
RATE and DIGEST_BYTES. -/

namespace Sys2Proof.Machine

/-! ## The kinds of a step

`exec_next` and `step_next` without the causes of a fault, which none of these statements needs. -/

/-- An instruction that answers a next state took some fault, or had its effect on a ready block. -/
theorem exec_next_raised_or_completed {i : Instr} {s t : State} (h : exec i s = .next t) :
    s.fault = 0x00#8 ∧ ((∃ c, t = s.raiseFault c) ∨ ∃ u d, s.Ready ∧ Effect i s u d ∧ t = u.complete d) := by
  obtain ⟨h0, ⟨-, ht⟩ | ⟨hr, ⟨c, -, ht⟩ | ⟨u, d, he, ht⟩⟩⟩ := exec_next h
  · exact ⟨h0, .inl ⟨_, ht⟩⟩
  · exact ⟨h0, .inl ⟨c, ht⟩⟩
  · exact ⟨h0, .inr ⟨u, d, hr, he, ht⟩⟩

/-- The four kinds of a step: a power-on reset (R240), the idle block (R217), a fault taken (R204), or the effect of
the command at the head of the queue (R70). -/
inductive StepKind (s : State) : State → Prop where
  | powerOn {cmds : List Command} : s.powerOn = some cmds → StepKind s (State.afterPowerOn s.config cmds)
  | idle : s.powerOn = none → s.fault = 0x00#8 → s.pending = [] → StepKind s s
  | raised (c : FaultCode) : s.powerOn = none → s.fault = 0x00#8 → StepKind s (s.raiseFault c)
  | completed {i : Instr} {u : State} {d : ResponseData} :
      s.powerOn = none → s.pending ≠ [] → s.Ready → Effect i s u d → StepKind s (u.complete d)

theorem stepKind_of_step {s t : State} (h : step s = .next t) : StepKind s t := by
  obtain ⟨cmds, hp, rfl⟩ | ⟨hp, h0, ⟨hq, ht⟩ | ⟨c, rest, hq, ⟨i, -, hx⟩ | ⟨e, -, hrej⟩⟩⟩ := step_next h
  · exact .powerOn hp
  · subst ht
    exact .idle hp h0 hq
  · obtain ⟨-, ⟨c, rfl⟩ | ⟨u, d, hr, he, rfl⟩⟩ := exec_next_raised_or_completed hx
    · exact .raised c hp h0
    · exact .completed hp (by simp [hq]) hr he
  · obtain ⟨-, rfl⟩ | ⟨-, rfl⟩ := hrej <;> exact .raised _ hp h0

/-! ## The invariants of R36 -/

theorem inv_of_ready {s : State} (hr : s.Ready) (hc : s.responses.length = s.cmdIndex) : s.Inv :=
  ⟨hr.variant_legal, hr.bufLen_lt, hr.spent_oneShot, hr.spent_empty, by simp [hr.no_fault], by simp [hr.no_fault, hc]⟩

theorem afterPowerOn_ready (c : Config) (cmds : List Command) : (State.afterPowerOn c cmds).Ready :=
  ⟨rfl, .inr (.inl rfl), by simp [State.afterPowerOn], by simp [State.afterPowerOn], fun _ => rfl⟩

theorem afterPowerOn_inv (c : Config) (cmds : List Command) : (State.afterPowerOn c cmds).Inv :=
  inv_of_ready (afterPowerOn_ready c cmds) rfl

/-- A fault changes no register of R36, and adds the one response that the halted block counts (R204). -/
theorem raiseFault_inv {s : State} (hs : s.Inv) (h0 : s.fault = 0x00#8) (c : FaultCode) : (s.raiseFault c).Inv where
  variant_legal := hs.variant_legal
  bufLen_lt := hs.bufLen_lt
  spent_oneShot := hs.spent_oneShot
  spent_empty := hs.spent_empty
  fault_code := by rw [raiseFault_fault_first c s h0]; exact code_le_six c
  one_response := by
    have before : s.responses.length = s.cmdIndex := by simpa [h0] using hs.one_response
    simp [raiseFault_fault_first c s h0, code_ne_zero, before]

theorem finalizeBody_ready {s : State} (hr : s.Ready) : (finalizeBody s).Ready := by
  cases hm : s.config.finalizeMode with
  | resumable => rwa [finalizeBody_resumable s hm]
  | oneShot =>
    have hb : 72 ≤ s.rate := (rate_bounds hr).1
    rw [finalizeBody_oneShot s hm]
    exact ⟨hr.no_fault, hr.variant_legal, Nat.lt_of_lt_of_le (by decide : 0 < 72) hb, fun _ => hm, fun _ => rfl⟩

/-- Every effect leaves a ready block ready: no command breaks R36. -/
theorem Effect.ready {i : Instr} {s u : State} {d : ResponseData} (h : Effect i s u d) (hr : s.Ready) : u.Ready := by
  cases h with
  | construct hv => exact fresh_ready hr hv
  | reset => exact fresh_ready hr hr.variant_legal
  | add hp => exact addBody_ready hr hp _
  | finalize => exact finalizeBody_ready hr
  | hashBytes hv => exact finalizeBody_ready (fresh_addBody hr hv _).1
  | hashText hv => exact finalizeBody_ready (fresh_addBody hr hv _).1
  | readReg => exact hr

/-- Settles O48, by the kinds of a step: a fault keeps R36 (`raiseFault_inv`) and an effect keeps the block ready
(`Effect.ready`), each with one response more. -/
theorem invariantsKept : Obligations.InvariantsKept := by
  intro s t hs h
  cases stepKind_of_step h with
  | powerOn => exact afterPowerOn_inv _ _
  | idle => exact hs
  | raised c _ h0 => exact raiseFault_inv hs h0 c
  | completed _ _ hr he =>
    obtain ⟨-, hidx, -, hresp, -, -⟩ := he.keeps
    have before : s.responses.length = s.cmdIndex := by simpa [hr.no_fault] using hs.one_response
    exact inv_of_ready (complete_ready (he.ready hr) _) (by simp [hidx, hresp, before])

/-- Settles O49: reset is power-on reset with the default parameters. -/
theorem invariantsHoldAtReset : Obligations.InvariantsHoldAtReset :=
  ⟨afterPowerOn_inv _ _, afterPowerOn_inv⟩

/-! ## FAULT and the command index -/

/-- Settles O11, by the kinds of a step: only a fault taken changes FAULT without a power-on reset. -/
theorem onlyPowerOnClearsFault : Obligations.OnlyPowerOnClearsFault := by
  intro s t h
  cases stepKind_of_step h with
  | powerOn hp => simp [hp]
  | idle _ h0 => simp [h0]
  | raised c _ h0 => simp [h0, raiseFault_fault_first]
  | completed _ _ hr he => simp [hr.no_fault, he.keeps.1]

/-- Settles O13: an idle step, a completed command and a fault taken are the three cases. -/
theorem commandIndexCountsCompletions : Obligations.CommandIndexCountsCompletions := by
  intro s t hp h
  cases stepKind_of_step h with
  | powerOn hp' => simp [hp] at hp'
  | idle _ _ hq => exact .inl ⟨hq, rfl⟩
  | raised c _ h0 => exact .inr (.inr ⟨by simp [raiseFault_fault_first, h0, code_ne_zero], rfl, rfl⟩)
  | completed _ hq hr he =>
    obtain ⟨hf, hidx, hpend, -, -, -⟩ := he.keeps
    exact .inr (.inl ⟨by simp [hf, hr.no_fault], by simp [hidx], by simp [hpend], hq⟩)

/-! ## Who writes which register -/

/-- Settles O36: a fault writes no register but FAULT, and what each effect leaves in a field is the field's own law
(`resetBody_buf`, `finalizeBody_byteCount`, `addBody_phase` and the like). -/
theorem registerWriters : Obligations.RegisterWriters := by
  intro i s t h
  obtain ⟨-, ⟨c, rfl⟩ | ⟨u, d, -, he, rfl⟩⟩ := exec_next_raised_or_completed h
  · simp
  · cases he with
    | construct hv => simp [hv]
    | reset => simp
    | add => simp
    | finalize => simp
    | hashBytes hv => simp [hv]
    | hashText hv => simp [hv]
    | readReg => simp

/-! ## Values at reset and registers without storage -/

theorem afterPowerOn_statusWord (c : Config) (cmds : List Command) :
    (State.afterPowerOn c cmds).statusWord = if c.finalizeMode = .resumable then 2#64 else 0#64 := by
  have spent : (State.afterPowerOn c cmds).spentFlag = false := rfl
  have resumable : (State.afterPowerOn c cmds).resumableFlag = (c.finalizeMode == .resumable) := rfl
  rw [State.statusWord, spent, resumable]
  cases c.finalizeMode <;> decide

/-- Settles O12: every row of the table of R35 is the field power-on reset writes. -/
theorem resetValues : Obligations.ResetValues :=
  ⟨fun i _ => laneAt_zeroLanes i, rfl, rfl, rfl, rfl, rfl, rfl, rfl, afterPowerOn_statusWord _ _⟩

/-- STATUS bit by bit: two flags, and zeros above them (R29). -/
theorem getLsbD_statusWord (s : State) (k : Nat) :
    s.statusWord.getLsbD k = if k = 0 then s.spentFlag else if k = 1 then s.resumableFlag else false := by
  rw [State.statusWord]
  match k with
  | 0 => cases s.resumableFlag <;> cases s.spentFlag <;> rfl
  | 1 => cases s.resumableFlag <;> cases s.spentFlag <;> rfl
  | k + 2 => simp

/-- READ_REG of a mapped register on a ready block (R185). -/
theorem exec_readReg_mapped {s : State} (hr : s.Ready) {n : RegNum} {r : Register} (hn : registerOf n = some r) :
    exec (.readReg n) s = .next (s.responded (.value (s.readRegister r))) :=
  exec_of_effect hr (.readReg hn)

/-- Settles O34, from STATUS bit by bit (`getLsbD_statusWord`). -/
theorem statusFields : Obligations.StatusFields :=
  ⟨fun s hr => exec_readReg_mapped hr (r := .status) rfl, getLsbD_statusWord, afterPowerOn_statusWord⟩

/-- Settles O35, by the four widths of a ready block. -/
theorem rateAndDigestBytesFollowVariant : Obligations.RateAndDigestBytesFollowVariant := by
  intro s hr
  have four : (s.rate = 144 ∧ s.digestBytes = 28) ∨ (s.rate = 136 ∧ s.digestBytes = 32) ∨
      (s.rate = 104 ∧ s.digestBytes = 48) ∨ (s.rate = 72 ∧ s.digestBytes = 64) := by
    rw [State.rate, State.digestBytes]
    obtain hv | hv | hv | hv := hr.variant_legal <;> simp [hv, rateOf, digestBytesOf]
  exact ⟨s.rate, s.digestBytes, rfl, rfl, by omega, by omega, by omega, exec_readReg_mapped hr (r := .rate) rfl,
    exec_readReg_mapped hr (r := .digestBytes) rfl⟩

end Sys2Proof.Machine
end

section
/-! PROOFS. The bytes of BUF beyond BUFLEN (10_state.md R25, 92_eei_decisions.md D22): each operation of the block takes
two states that differ in them alone to two such states. -/

namespace Sys2Proof.Machine

/-! ## States that differ beyond BUFLEN alone -/

/-- `SameVisible` as one state with another BUF: every other field of the two is then equal by definition. -/
theorem SameVisible.exists_buf {s t : State} (h : SameVisible s t) :
    ∃ B : Buffer, (∀ k : Nat, k < s.bufLen.toNat → s.buf[k]? = B[k]?) ∧ t = { s with buf := B } := by
  obtain ⟨hl, hv, hn, hb, hc, hp, hf, hi, hg, hq, hr, hw⟩ := h
  refine ⟨t.buf, hb, ?_⟩
  rw [hl, hv, hn, hc, hp, hf, hi, hg, hq, hr, hw]

theorem sameVisible_buf (s : State) {B : Buffer} (hB : ∀ k : Nat, k < s.bufLen.toNat → s.buf[k]? = B[k]?) :
    SameVisible s { s with buf := B } :=
  ⟨rfl, rfl, rfl, hB, rfl, rfl, rfl, rfl, rfl, rfl, rfl, rfl⟩

theorem SameVisible.refl (s : State) : SameVisible s s := sameVisible_buf s fun _ _ => rfl

/-- The first bytes of two buffers that agree there. -/
theorem take_toList_eq {B C : Buffer} {n : Nat} (h : ∀ k : Nat, k < n → B[k]? = C[k]?) :
    B.toList.take n = C.toList.take n := by
  apply List.ext_getElem?
  intro k
  by_cases hk : k < n
  · simpa [List.getElem?_take_of_lt hk] using h k hk
  · simp [hk]

/-- Every meaning begins with `accept`. -/
theorem accept_exec (i : Instr) (s : State) : accept s (exec i) = exec i s := by
  by_cases h0 : s.fault = 0x00#8
  · cases hi : s.invariantHolds with
    | false => rw [accept_breach h0 hi, exec_breach i h0 hi, raise]
    | true => exact accept_ready ((ready_iff s).mpr ⟨h0, hi⟩) _
  · rw [accept_halted h0, exec_halted i h0]

section Operations
variable {s t : State} (h : SameVisible s t)
include h

theorem SameVisible.raiseFault (c : FaultCode) : SameVisible (s.raiseFault c) (t.raiseFault c) := by
  obtain ⟨B, hB, rfl⟩ := h.exists_buf
  exact sameVisible_buf (s.raiseFault c) hB

theorem SameVisible.complete (d : ResponseData) : SameVisible (s.complete d) (t.complete d) := by
  obtain ⟨B, hB, rfl⟩ := h.exists_buf
  exact sameVisible_buf (s.complete d) hB

theorem SameVisible.variant_update (v : VBits) : SameVisible { s with variant := v } { t with variant := v } := by
  obtain ⟨B, hB, rfl⟩ := h.exists_buf
  exact sameVisible_buf { s with variant := v } hB

/-- ResetBody empties the buffer, so all of BUF is then beyond BUFLEN (R136). -/
theorem SameVisible.resetBody : SameVisible (resetBody s) (resetBody t) := by
  obtain ⟨B, -, rfl⟩ := h.exists_buf
  exact sameVisible_buf (Machine.resetBody s) fun _ hk => nomatch hk

/-- A byte of an ADD is written at BUFLEN, and a block that fills up is read up to that byte (R137). -/
theorem SameVisible.addByte (b : Byte) : SameVisible (addByte s b) (addByte t b) := by
  obtain ⟨B, hB, rfl⟩ := h.exists_buf
  have written : ∀ k : Nat, k < (s.bufLen + 1#8).toNat →
      (s.buf.setIfInBounds s.bufLen.toNat b)[k]? = (B.setIfInBounds s.bufLen.toNat b)[k]? := by
    intro k hk
    have next : (s.bufLen + 1#8).toNat ≤ s.bufLen.toNat + 1 := by
      rw [BitVec.toNat_add]; exact Nat.mod_le _ _
    rw [Vector.getElem?_setIfInBounds, Vector.getElem?_setIfInBounds]
    split
    · rfl
    · exact hB k (by omega)
  by_cases full : (s.bufLen + 1#8).toNat = s.rate
  · have block := take_toList_eq (full ▸ written)
    rw [addByte_full full, addByte_full (s := { s with buf := B }) full, block]
    exact sameVisible_buf { s with
      lanes := absorbBlock s.rate s.lanes ((B.setIfInBounds s.bufLen.toNat b).toList.take s.rate)
      buf := s.buf.setIfInBounds s.bufLen.toNat b
      bufLen := 0#8 } fun _ hk => nomatch hk
  · rw [addByte_more full, addByte_more (s := { s with buf := B }) full]
    exact sameVisible_buf { s with buf := s.buf.setIfInBounds s.bufLen.toNat b, bufLen := s.bufLen + 1#8 } written

theorem SameVisible.addBody (data : List Byte) : SameVisible (addBody data s) (addBody data t) := by
  have loop : SameVisible (data.foldl Machine.addByte s) (data.foldl Machine.addByte t) := by
    induction data generalizing s t with
    | nil => exact h
    | cons b data ih => exact ih (h.addByte b)
  obtain ⟨hl, hv, hn, hb, -, hp, hf, hi, hg, hq, hr, hw⟩ := loop
  exact ⟨hl, hv, hn, hb, congrArg (· + _) h.byteCount, hp, hf, hi, hg, hq, hr, hw⟩

theorem SameVisible.finalLanes : s.finalLanes = t.finalLanes := by
  obtain ⟨B, hB, rfl⟩ := h.exists_buf
  have rem : s.remainder = State.remainder { s with buf := B } := take_toList_eq hB
  rw [State.finalLanes, rem]
  rfl

theorem SameVisible.digest : s.digest = t.digest := by
  rw [State.digest, State.digest, h.finalLanes, State.digestBytes, State.digestBytes, h.variant]

theorem SameVisible.finalizeBody : SameVisible (finalizeBody s) (finalizeBody t) := by
  have lanes := h.finalLanes
  obtain ⟨B, hB, rfl⟩ := h.exists_buf
  cases hm : s.config.finalizeMode with
  | resumable => rwa [finalizeBody_resumable s hm, finalizeBody_resumable { s with buf := B } hm]
  | oneShot =>
    rw [finalizeBody_oneShot s hm, finalizeBody_oneShot { s with buf := B } hm, ← lanes]
    exact sameVisible_buf { s with lanes := s.finalLanes, bufLen := 0#8, phase := .spent } fun _ hk => nomatch hk

/-- No register that READ_REG can read shows BUF (R185). -/
theorem SameVisible.readRegister (r : Register) : s.readRegister r = t.readRegister r := by
  obtain ⟨B, -, rfl⟩ := h.exists_buf
  cases r <;> rfl

/-! ## Instructions and steps -/

theorem SameVisible.trap {i : Instr} {c : FaultCode} (hc : Trap i s c) : Trap i t c := by
  cases hc with
  | construct hv => exact .construct hv
  | add hp => exact .add (h.phase ▸ hp)
  | finalize hp => exact .finalize (h.phase ▸ hp)
  | hashBytes hv => exact .hashBytes hv
  | hashText hv => exact .hashText hv
  | hashTextRange hv hx => exact .hashTextRange hv hx
  | readReg hn => exact .readReg hn

theorem SameVisible.effect {i : Instr} {u : State} {d : ResponseData} (he : Effect i s u d) :
    ∃ w, Effect i t w d ∧ SameVisible u w := by
  cases he with
  | @construct v _ hv => exact ⟨_, .construct hv, (h.variant_update v).resetBody⟩
  | reset => exact ⟨_, .reset, h.resetBody⟩
  | @add data _ hp => exact ⟨_, .add (h.phase ▸ hp), h.addBody data⟩
  | finalize hp =>
    rw [h.digest]
    exact ⟨_, .finalize (h.phase ▸ hp), h.finalizeBody⟩
  | @hashBytes v data _ hv =>
    have filled := (h.variant_update v).resetBody.addBody data
    rw [filled.digest]
    exact ⟨_, .hashBytes hv, filled.finalizeBody⟩
  | @hashText v _ _ data _ hv hx =>
    have filled := (h.variant_update v).resetBody.addBody data
    rw [filled.digest]
    exact ⟨_, .hashText hv hx, filled.finalizeBody⟩
  | readReg hn =>
    rw [h.readRegister]
    exact ⟨_, .readReg hn, h⟩

theorem SameVisible.invariantHolds : s.invariantHolds = t.invariantHolds := by
  obtain ⟨B, -, rfl⟩ := h.exists_buf
  rfl

theorem SameVisible.ready (hr : s.Ready) : t.Ready := by
  rwa [ready_iff, ← h.fault, ← h.invariantHolds, ← ready_iff]

/-- Both blocks are halted, both breach R36, or both accept the command. -/
theorem SameVisible.accept {body : State → Result} (hb : s.Ready → SameAnswer (body s) (body t)) :
    SameAnswer (accept s body) (accept t body) := by
  by_cases h0 : s.fault = 0x00#8
  · cases hi : s.invariantHolds with
    | false =>
      rw [accept_breach h0 hi, accept_breach (h.fault ▸ h0) (h.invariantHolds ▸ hi)]
      exact h.raiseFault _
    | true =>
      have hr : s.Ready := (ready_iff s).mpr ⟨h0, hi⟩
      rw [accept_ready hr, accept_ready (h.ready hr)]
      exact hb hr
  · rw [accept_halted h0, accept_halted (h.fault ▸ h0)]
    exact congrArg Fault.halted h.fault

/-- On two such ready states an instruction traps alike or has its effect on both. -/
theorem SameVisible.exec (i : Instr) : SameAnswer (exec i s) (exec i t) := by
  rw [← accept_exec i s, ← accept_exec i t]
  refine h.accept fun hr => ?_
  obtain ⟨c, hc⟩ | ⟨u, d, he⟩ := trap_or_effect i s
  · rw [exec_of_trap hr hc, exec_of_trap (h.ready hr) (h.trap hc)]
    exact h.raiseFault c
  · obtain ⟨w, he', hw⟩ := h.effect he
    rw [exec_of_effect hr he, exec_of_effect (h.ready hr) he']
    exact hw.complete d

theorem SameVisible.runCommand (c : Command) : SameAnswer (runCommand c s) (runCommand c t) := by
  rw [Machine.runCommand, Machine.runCommand, ← h.config]
  cases decode s.config.charWidth c with
  | ok i => exact h.exec i
  | error => exact h.accept fun _ => h.raiseFault .illegalCommand

end Operations

/-- Settles O50, by the cases of a step, whose choice reads no byte of BUF: a power-on reset, the halted block, the idle
block, or the next command (`SameVisible.runCommand`). -/
theorem bytesBeyondBufLenInvisible : Obligations.BytesBeyondBufLenInvisible := by
  intro s t h
  rw [step, step, advance, advance, State.nextCommand, State.nextCommand, ← h.powerOn, ← h.fault, ← h.config,
    ← h.pending]
  cases s.powerOn with
  | some cmds => exact .refl _
  | none =>
    by_cases halted : s.fault ≠ 0x00#8
    · simp only [if_pos halted]
      rfl
    · simp only [if_neg halted]
      cases s.pending with
      | nil => exact h
      | cons c rest => exact h.runCommand c

end Sys2Proof.Machine
end

section
/-! PROOFS. What a FINALIZE leaves of the stream (20_memory.md R46, R138), and how bytes stand in lanes, little-endian,
when a block is absorbed (R41, R131) and when a digest is extracted (R42, R160, R161). -/

namespace Sys2Proof.Machine

/-! ## Commands in a row -/

/-- An instruction that has its effect hands the state it answers to the rest of the list. -/
theorem execAll_cons_of_effect {i : Instr} {s u : State} {d : ResponseData} (hr : s.Ready) (he : Effect i s u d)
    (is : List Instr) : execAll (i :: is) s = execAll is (u.complete d) := by
  rw [execAll, exec_of_effect hr he]

/-- The digest reads no bookkeeping of the port. -/
@[simp] theorem complete_digest (d : ResponseData) (s : State) : (s.complete d).digest = s.digest := rfl

/-! ## FINALIZE and the stream (R46, R138) -/

/-- In RESUMABLE mode a FINALIZE is only its response. -/
theorem execAll_finalize_resumable {s : State} (hr : s.Ready) (ha : s.phase = .absorbing)
    (hm : s.config.finalizeMode = .resumable) (is : List Instr) :
    execAll (.finalize :: is) s = execAll is (s.complete (.hex s.digest)) := by
  rw [execAll_cons_of_effect hr (.finalize ha), finalizeBody_resumable s hm]

theorem execAll_add {s : State} (hr : s.Ready) (ha : s.phase = .absorbing) (data : List Byte) (is : List Instr) :
    execAll (.add data :: is) s = execAll is ((addBody data s).complete .none) :=
  execAll_cons_of_effect hr (.add ha) is

/-- Two FINALIZEs in a row respond with one digest (R46). -/
theorem execAll_finalize_finalize {s : State} (hr : s.Ready) (ha : s.phase = .absorbing)
    (hm : s.config.finalizeMode = .resumable) :
    execAll [.finalize, .finalize] s = .next ((s.complete (.hex s.digest)).complete (.hex s.digest)) := by
  rw [execAll_finalize_resumable hr ha hm, execAll_finalize_resumable (complete_ready hr _) ha hm, complete_digest,
    execAll]

/-- The second ADD commutes with the response of the FINALIZE before it (`addBody_complete`), so the FINALIZE between
two ADDs is one more completed command and nothing else. -/
theorem execAll_add_finalize_add {s : State} (hr : s.Ready) (ha : s.phase = .absorbing)
    (hm : s.config.finalizeMode = .resumable) (a b : List Byte) :
    ∃ (u : State) (d : ResponseData),
      execAll [.add a, .finalize, .add b] s = .next ((u.complete d).complete .none) ∧
      execAll [.add a, .add b] s = .next (u.complete .none) := by
  have hr' : ((addBody a s).complete .none).Ready := complete_ready (addBody_ready hr ha a) _
  have ha' : ((addBody a s).complete .none).phase = .absorbing := by simp [ha]
  have hm' : ((addBody a s).complete .none).config.finalizeMode = .resumable := by simp [hm]
  refine ⟨addBody b ((addBody a s).complete .none), .hex (addBody a s).digest, ?_, ?_⟩
  · rw [execAll_add hr ha, execAll_finalize_resumable hr' ha' hm', execAll_add (complete_ready hr' _) ha',
      addBody_complete b _ (.hex _), complete_digest, execAll]
  · rw [execAll_add hr ha, execAll_add hr' ha', execAll]

/-- In ONE_SHOT mode a FINALIZE leaves PHASE spent, and the next one takes SPENT_INSTANCE (R202). -/
theorem exec_finalize_after_oneShot {s : State} (hr : s.Ready) (hm : s.config.finalizeMode = .oneShot)
    (d : ResponseData) :
    exec .finalize ((finalizeBody s).complete d) = .next (((finalizeBody s).complete d).faulted 0x03#8) := by
  have hr' : ((finalizeBody s).complete d).Ready := complete_ready (finalizeBody_ready hr) d
  have spent : ((finalizeBody s).complete d).phase = .spent := by rw [finalizeBody_oneShot s hm]; rfl
  rw [exec_of_trap hr' (.finalize spent), raiseFault_eq_faulted _ hr'.no_fault]
  rfl

/-- Settles O26, by the two modes: a FINALIZE is only its response, or it leaves PHASE spent. -/
theorem finalizeTwice : Obligations.FinalizeTwice := by
  intro s hr ha
  refine ⟨fun hm => ⟨s.digest, execAll_finalize_finalize hr ha hm, fun a b => ?_⟩, fun hm => ?_⟩
  · obtain ⟨u, d, with_finalize, without⟩ := execAll_add_finalize_add hr ha hm a b
    exact ⟨_, _, with_finalize, without, rfl, rfl, rfl, rfl, rfl, rfl, rfl⟩
  · exact ⟨_, exec_of_effect hr (.finalize ha), by simp [hr.no_fault], exec_finalize_after_oneShot hr hm _⟩

/-! ## Bytes into lanes (R41, R131) -/

theorem byteAt_eq_getElem {blk : List Byte} {k : Nat} (h : k < blk.length) : byteAt blk k = blk[k] := by
  simp [byteAt, h]

/-- Byte k of the word that lane i takes from a block is byte `8*i + k` of the block (R41). -/
theorem extractLsb'_blockLane (blk : List Byte) (i : Nat) {k : Nat} (h : k < 8) :
    (blockLane blk i).extractLsb' (8 * k) 8 = byteAt blk (8 * i + k) :=
  extractLsb'_le64 (fun k => byteAt blk (8 * i + k)) h

theorem laneAt_xorBlock (rate : Nat) (S : Lanes) (blk : List Byte) {i : Nat} (h : i < 25) :
    laneAt (xorBlock rate S blk) i =
      if i < rate / 8 then laneAt S i ^^^ blockLane blk i else laneAt S i :=
  laneAt_ofFn _ h

/-- Byte k of the lanes takes byte k of the block. -/
theorem extractLsb'_xorBlock {rate : Nat} (S : Lanes) {blk : List Byte} {k : Nat} (hr : rate ≤ 200)
    (h8 : rate % 8 = 0) (hk : k < rate) :
    (laneAt (xorBlock rate S blk) (k / 8)).extractLsb' (8 * (k % 8)) 8 =
      (laneAt S (k / 8)).extractLsb' (8 * (k % 8)) 8 ^^^ byteAt blk k := by
  have index : 8 * (k / 8) + k % 8 = k := by omega
  rw [laneAt_xorBlock rate S blk (by omega), if_pos (by omega), BitVec.extractLsb'_xor,
    extractLsb'_blockLane blk _ (by omega), index]

/-- Settles O44: the lanes before the permutation are `xorBlock`'s, byte by byte below RATE and unchanged beyond. -/
theorem absorbBlockLittleEndian : Obligations.AbsorbBlockLittleEndian := by
  intro v S blk hv rate hlen
  have hb : 72 ≤ rate ∧ rate ≤ 144 ∧ rate % 8 = 0 := rateOf_bounds hv
  refine ⟨xorBlock rate S blk, rfl, fun k hk => ?_, fun i hi h25 => ?_⟩
  · rw [extractLsb'_xorBlock S (by omega) (by omega) (by omega), byteAt_eq_getElem hk]
  · rw [laneAt_xorBlock rate S blk h25, if_neg (by omega)]

/-! ## Lanes into bytes (R42, R160, R161) -/

/-- EXTRACT is the list of the digest bytes that R42 gives. -/
theorem extractDigest_eq_map_digestByte (n : Nat) (T : Lanes) :
    extractDigest n T = (List.range n).map (Reference.digestByte T) := by
  simp only [extractDigest, extract_eq_digestByte]

/-- The bytes of the lower half of a lane are the bytes of its low 32 bits. -/
theorem extractLsb'_setWidth_low (x : Lane) {k : Nat} (h : k < 4) :
    (x.setWidth 32).extractLsb' (8 * k) 8 = x.extractLsb' (8 * k) 8 := by
  apply BitVec.eq_of_getLsbD_eq
  intro i hi
  have low : 8 * k + i < 32 := by omega
  simp [low]

/-- The 28 digest bytes at V = 224 come from lanes 0 to 2 and the lower half of lane 3 (R161). -/
theorem digestByte_eq_of_low_lanes {T U : Lanes} (h : ∀ i < 3, laneAt T i = laneAt U i)
    (h3 : (laneAt T 3).setWidth 32 = (laneAt U 3).setWidth 32) {j : Nat} (hj : j < 28) :
    Reference.digestByte T j = Reference.digestByte U j := by
  rw [Reference.digestByte, Reference.digestByte]
  by_cases whole : j / 8 < 3
  · rw [h _ whole]
  · have lane : j / 8 = 3 := by omega
    have half : j % 8 < 4 := by omega
    rw [lane, ← extractLsb'_setWidth_low _ half, h3, extractLsb'_setWidth_low _ half]

/-- Settles O46: EXTRACT lists the digest bytes, and at V = 224 each of them comes from the low lanes. -/
theorem extractDigestBytes : Obligations.ExtractDigestBytes := by
  refine ⟨fun T n j hj => ?_, fun T n => by simp [extractDigest], fun T U h0 h1 h2 h3 => ?_⟩
  · rw [extractDigest_eq_map_digestByte, List.getElem?_map, List.getElem?_range hj]
    rfl
  · have low : ∀ i < 3, laneAt T i = laneAt U i := by
      intro i hi
      interval_cases i <;> assumption
    rw [extractDigest_eq_map_digestByte, extractDigest_eq_map_digestByte]
    exact List.map_congr_left fun j hj => digestByte_eq_of_low_lanes low h3 (List.mem_range.mp hj)

end Sys2Proof.Machine
end

section
/-! PROOFS. The command encoding (30_encoding.md R60 to R69): the fields of a word, the decoder said once as R63's match
and mask table, the two round trips between decoder and encoder, and the step's use of the decoder. -/

namespace Sys2Proof

/-! ## Fields of a word (R61, R62) -/

/-- Bits taken from their place in a word and put back there are the word under the field's mask. -/
theorem shifted_field_eq_and (w : Word) (start n : Nat) :
    (w.extractLsb' start n).setWidth 32 <<< start = w &&& ((BitVec.allOnes n).setWidth 32 <<< start) := by
  apply BitVec.eq_of_getLsbD_eq
  intro i hi
  by_cases below : i < start
  · simp [below]
  · have place : start + (i - start) = i := by omega
    simp [below, hi, place]
    grind

theorem opField_setWidth (w : Word) : (opField w).setWidth 32 = w &&& 0xFF#32 := by
  rw [opField, ← BitVec.shiftLeft_zero (BitVec.setWidth 32 _)]
  exact shifted_field_eq_and w 0 8

theorem encodeVBits_vbitsField (w : Word) : encodeVBits (vbitsField w) = w &&& 0x03FF0000#32 :=
  shifted_field_eq_and w 16 10

theorem encodeRegNum_regnumField (w : Word) : encodeRegNum (regnumField w) = w &&& 0x0000FF00#32 :=
  shifted_field_eq_and w 8 8

theorem encodeIsHex_isHexField (w : Word) : encodeIsHex (isHexField w) = w &&& 0x00000100#32 := by
  have bit : BitVec.ofBool (w.getLsbD 8) = w.extractLsb' 8 1 := by
    apply BitVec.eq_of_getLsbD_eq
    intro i hi
    obtain rfl : i = 0 := by omega
    simp
  rw [isHexField, encodeIsHex, bit]
  exact shifted_field_eq_and w 8 1

@[simp] theorem vbitsField_or (w u : Word) : vbitsField (w ||| u) = vbitsField w ||| vbitsField u :=
  BitVec.extractLsb'_or

@[simp] theorem isHexField_or (w u : Word) : isHexField (w ||| u) = (isHexField w || isHexField u) :=
  BitVec.getLsbD_or

@[simp] theorem regnumField_or (w u : Word) : regnumField (w ||| u) = regnumField w ||| regnumField u :=
  BitVec.extractLsb'_or

@[simp] theorem vbitsField_encodeVBits : ∀ v : VBits, vbitsField (encodeVBits v) = v := by decide +kernel

@[simp] theorem vbitsField_encodeIsHex : ∀ b : Bool, vbitsField (encodeIsHex b) = 0#10 := by decide

@[simp] theorem isHexField_encodeVBits : ∀ v : VBits, isHexField (encodeVBits v) = false := by decide +kernel

@[simp] theorem isHexField_encodeIsHex : ∀ b : Bool, isHexField (encodeIsHex b) = b := by decide

@[simp] theorem regnumField_encodeRegNum : ∀ n : RegNum, regnumField (encodeRegNum n) = n := by decide +kernel

/-! ## The match and mask table (R63), by opcode -/

/-- The match column of `tableRows` (`eq_row_of_mem_tableRows`). -/
def Opcode.matchWord : Opcode → Word
  | .construct => 0x00000001#32
  | .reset => 0x00000002#32
  | .add => 0x00000003#32
  | .finalize => 0x00000004#32
  | .hashBytes => 0x00000010#32
  | .hashText => 0x00000011#32
  | .readReg => 0x00000020#32

/-- The mask column of `tableRows` (`eq_row_of_mem_tableRows`): the reserved bits and OP. -/
def Opcode.mask (op : Opcode) : Word := op.format.reservedMask ||| 0xFF#32

/-- The word matches the opcode's row. -/
def Opcode.Matches (op : Opcode) (w : Word) : Prop := w &&& op.mask = op.matchWord

theorem eq_row_of_mem_tableRows : ∀ r ∈ tableRows, r = ⟨r.opcode, r.opcode.matchWord, r.opcode.mask⟩ := by decide

theorem opcodeOf_eq_some_iff (b : BitVec 8) (op : Opcode) : opcodeOf b = some op ↔ b = opField op.matchWord := by
  revert b
  cases op <;> decide +kernel

theorem opField_and_mask (op : Opcode) (w : Word) : opField (w &&& op.mask) = opField w := by
  have op_bits : op.mask.extractLsb' 0 8 = BitVec.allOnes 8 := by cases op <;> rfl
  rw [opField, BitVec.extractLsb'_and, op_bits, BitVec.and_allOnes, opField]

/-- A row of the table is checks 1 and 2 of R65. -/
theorem Opcode.matches_iff (op : Opcode) (w : Word) :
    op.Matches w ↔ opcodeOf (opField w) = some op ∧ w &&& op.format.reservedMask = 0#32 := by
  have op_match : (opField op.matchWord).setWidth 32 = op.matchWord := by cases op <;> rfl
  have reserved_mask : op.mask &&& op.format.reservedMask = op.format.reservedMask := by cases op <;> rfl
  have reserved_match : op.matchWord &&& op.format.reservedMask = 0#32 := by cases op <;> rfl
  rw [opcodeOf_eq_some_iff]
  constructor
  · intro h
    exact ⟨by rw [← h, opField_and_mask], by rw [← reserved_mask, ← BitVec.and_assoc, h, reserved_match]⟩
  · rintro ⟨hop, hreserved⟩
    rw [Opcode.Matches, Opcode.mask, BitVec.and_or_distrib_left, hreserved, ← opField_setWidth, hop, op_match,
      BitVec.zero_or]

/-- Every instruction's word matches its opcode's row. -/
theorem encode_matches (i : Instr) : i.opcode.Matches (encode i).word := by
  have row : Laws.TableRow.Statement i := by
    cases i with
    | construct v => exact Laws.TableRow.construct v
    | reset => exact Laws.TableRow.reset
    | add data => exact Laws.TableRow.add data
    | finalize => exact Laws.TableRow.finalize
    | hashBytes v data => exact Laws.TableRow.hashBytes v data
    | hashText v isHex text => exact Laws.TableRow.hashText v isHex text
    | readReg n => exact Laws.TableRow.readReg n
  have member : i.opcode ∈ [i.opcode] := List.mem_singleton_self _
  rw [← row] at member
  obtain ⟨r, hr, hop⟩ := List.mem_map.mp member
  obtain ⟨hrow, hmatch⟩ := List.mem_filter.mp hr
  rw [eq_row_of_mem_tableRows r hrow, hop] at hmatch
  exact beq_iff_eq.mp hmatch

/-! ## Payloads (R64) -/

/-- The payload is empty or of the kind: check 3 of R65. -/
def Payload.Suits (charWidth : Nat) (k : PayloadKind) (p : Payload) : Prop :=
  p.isEmpty = true ∨ p.ofKind charWidth k = true

theorem suits_none_iff (cw : Nat) (p : Payload) : p.Suits cw .none ↔ p.isEmpty = true := by
  cases p <;> simp [Payload.Suits, Payload.ofKind]

theorem suits_bytes_iff (cw : Nat) (p : Payload) :
    p.Suits cw .bytes ↔ p.isEmpty = true ∨ ∃ d, p = .bytes d := by
  cases p <;> simp [Payload.Suits, Payload.ofKind]

theorem suits_chars_iff (cw : Nat) (p : Payload) :
    p.Suits cw .chars ↔ p.isEmpty = true ∨ ∃ t, p = .chars t ∧ ∀ c ∈ t, c < 2 ^ cw := by
  cases p <;> simp [Payload.Suits, Payload.ofKind, CharCode.fits]

/-! ## The decoder, said once -/

/-- A command decodes exactly when its word matches a row of R63's table and its payload suits the row. -/
theorem decode_eq_ok_iff (cw : Nat) (c : Command) (i : Instr) :
    decode cw c = .ok i ↔
      ∃ op : Opcode, op.Matches c.word ∧ c.payload.Suits cw op.payloadKind ∧ op.build c.word c.payload = i := by
  unfold decode
  cases hop : opcodeOf (opField c.word) with
  | none => simp [Opcode.matches_iff, hop]
  | some op =>
    by_cases hreserved : c.word &&& op.format.reservedMask = 0#32
    · by_cases suits : c.payload.Suits cw op.payloadKind
      · have check : (c.payload.isEmpty || c.payload.ofKind cw op.payloadKind) = true := Bool.or_eq_true_iff.mpr suits
        simp [Opcode.matches_iff, hop, hreserved, suits, check]
      · have check : ¬ (c.payload.isEmpty || c.payload.ofKind cw op.payloadKind) = true :=
          mt Bool.or_eq_true_iff.mp suits
        simp [Opcode.matches_iff, hop, hreserved, suits, check]
    · simp [Opcode.matches_iff, hop, hreserved]

/-! ## Encoding what was decoded, and decoding what was encoded -/

theorem build_encode (i : Instr) : i.opcode.build (encode i).word (encode i).payload = i := by
  cases i with
  | construct v =>
    have fields : vbitsField (0x01#32) = 0#10 := rfl
    simp [encode, Instr.opcode, Opcode.build, fields]
  | reset => rfl
  | add data => rfl
  | finalize => rfl
  | hashBytes v data =>
    have fields : vbitsField (0x10#32) = 0#10 := rfl
    simp [encode, Instr.opcode, Opcode.build, Payload.byteList, fields]
  | hashText v isHex text =>
    have fields : vbitsField (0x11#32) = 0#10 ∧ isHexField (0x11#32) = false := ⟨rfl, rfl⟩
    simp [encode, Instr.opcode, Opcode.build, Payload.charList, fields]
  | readReg n =>
    have fields : regnumField (0x20#32) = 0#8 := rfl
    simp [encode, Instr.opcode, Opcode.build, fields]

/-- The encoding has the fields of the word and the match bits of the row. -/
theorem encode_build_word (op : Opcode) (w : Word) (p : Payload) :
    (encode (op.build w p)).word = w &&& ~~~op.mask ||| op.matchWord := by
  cases op with
  | construct => exact congrArg (· ||| 0x01#32) (encodeVBits_vbitsField w)
  | reset => exact (congrArg (· ||| 0x02#32) (BitVec.and_zero (x := w))).symm
  | add => exact (congrArg (· ||| 0x03#32) (BitVec.and_zero (x := w))).symm
  | finalize => exact (congrArg (· ||| 0x04#32) (BitVec.and_zero (x := w))).symm
  | hashBytes => exact congrArg (· ||| 0x10#32) (encodeVBits_vbitsField w)
  | hashText =>
    have fields : encodeVBits (vbitsField w) ||| encodeIsHex (isHexField w) = w &&& 0x03FF0100#32 := by
      rw [encodeVBits_vbitsField, encodeIsHex_isHexField, ← BitVec.and_or_distrib_left]
      rfl
    exact congrArg (· ||| 0x11#32) fields
  | readReg => exact congrArg (· ||| 0x20#32) (encodeRegNum_regnumField w)

/-- No bit of a word that matches a row is ignored. -/
theorem encode_build_word_of_matches {op : Opcode} {w : Word} (h : op.Matches w) (p : Payload) :
    (encode (op.build w p)).word = w := by
  rw [encode_build_word, ← h, ← BitVec.and_or_distrib_left, BitVec.or_comm, BitVec.or_not_self, BitVec.and_allOnes]

theorem bytes_byteList {cw : Nat} {p : Payload} (h : p.Suits cw .bytes) :
    .bytes p.byteList = p ∨ p.isEmpty = true ∧ (Payload.bytes p.byteList).isEmpty = true := by
  cases p with
  | empty => exact .inr ⟨rfl, rfl⟩
  | bytes data => exact .inl rfl
  | chars text => exact .inr ⟨by simpa [suits_bytes_iff] using h, rfl⟩

theorem chars_charList {cw : Nat} {p : Payload} (h : p.Suits cw .chars) :
    .chars p.charList = p ∨ p.isEmpty = true ∧ (Payload.chars p.charList).isEmpty = true := by
  cases p with
  | empty => exact .inr ⟨rfl, rfl⟩
  | bytes data => exact .inr ⟨by simpa [suits_chars_iff] using h, rfl⟩
  | chars text => exact .inl rfl

theorem charList_lt {cw : Nat} {p : Payload} (h : p.Suits cw .chars) : ∀ c ∈ p.charList, c < 2 ^ cw := by
  cases p with
  | empty => simp [Payload.charList]
  | bytes data => simp [Payload.charList]
  | chars text =>
    obtain empty | fits := h
    · simp [Payload.charList, List.isEmpty_iff.mp empty]
    · simpa [Payload.ofKind, CharCode.fits, Payload.charList] using fits

theorem encode_build_payload {cw : Nat} {op : Opcode} {p : Payload} (h : p.Suits cw op.payloadKind) (w : Word) :
    (encode (op.build w p)).payload = p ∨
      p.isEmpty = true ∧ (encode (op.build w p)).payload.isEmpty = true := by
  cases op with
  | construct => exact .inr ⟨(suits_none_iff cw p).mp h, rfl⟩
  | reset => exact .inr ⟨(suits_none_iff cw p).mp h, rfl⟩
  | add => exact bytes_byteList h
  | finalize => exact .inr ⟨(suits_none_iff cw p).mp h, rfl⟩
  | hashBytes => exact bytes_byteList h
  | hashText => exact chars_charList h
  | readReg => exact .inr ⟨(suits_none_iff cw p).mp h, rfl⟩

theorem build_wf {cw : Nat} {op : Opcode} {p : Payload} (h : p.Suits cw op.payloadKind) (w : Word) :
    (op.build w p).wf cw = true := by
  cases op with
  | hashText => simpa [Opcode.build, Instr.wf, CharCode.fits] using charList_lt h
  | _ => rfl

theorem encode_payload_suits {cw : Nat} {i : Instr} (h : i.wf cw = true) :
    (encode i).payload.Suits cw i.opcode.payloadKind := by
  cases i with
  | hashText v isHex text => exact .inr h
  | add data => exact .inr rfl
  | hashBytes v data => exact .inr rfl
  | _ => exact .inl rfl

/-- Settles O2: the encoded word matches the instruction's row, and the row's command with the word's fields is the
instruction. -/
theorem decodeOfEncode : Obligations.DecodeOfEncode := fun cw i h =>
  (decode_eq_ok_iff cw (encode i) i).mpr ⟨i.opcode, encode_matches i, encode_payload_suits h, build_encode i⟩

/-- Settles O3: a command that decodes matches a row, whose match bits and fields are the whole word. -/
theorem encodeOfDecode : Obligations.EncodeOfDecode := by
  intro cw c i h
  obtain ⟨op, row, suits, rfl⟩ := (decode_eq_ok_iff cw c i).mp h
  exact ⟨encode_build_word_of_matches row _, build_wf suits _, encode_build_payload suits _⟩

/-- Settles O1: the decoder is evaluated on each word and payload. -/
theorem referenceWordsDecode : Obligations.ReferenceWordsDecode := by
  unfold Obligations.ReferenceWordsDecode
  decide

/-- Settles O5: the width 256 and the flag of each expansion are evaluated. -/
theorem pseudoInstructionsExpand : Obligations.PseudoInstructionsExpand :=
  ⟨fun _ => rfl, fun _ => rfl, fun _ => rfl⟩

end Sys2Proof

namespace Sys2Proof.Machine

/-! ## The step and the decoder (R65) -/

/-- The step of a block that takes the command at the head of the queue. -/
theorem step_eq_runCommand {s : State} {c : Command} {rest : List Command} (hp : s.powerOn = none)
    (h0 : s.fault = 0x00#8) (hq : s.pending = c :: rest) : step s = runCommand c s := by
  simp [step, advance, State.nextCommand, hp, h0, hq]

theorem runCommand_of_decode_ok {s : State} {c : Command} {i : Instr} (h : decode s.config.charWidth c = .ok i) :
    runCommand c s = exec i s := by
  simp [runCommand, h]

/-- A command the decoder rejects takes ILLEGAL_COMMAND and does nothing else (R65, R204). -/
theorem runCommand_of_decode_error {s : State} {c : Command} {e : DecodeError} (hr : s.Ready)
    (h : decode s.config.charWidth c = .error e) : runCommand c s = .next (s.faulted 0x01#8) := by
  simp [runCommand, h, accept_ready hr, raise, raiseFault_eq_faulted _ hr.no_fault, FaultCode.code]

/-- Settles O6: the step takes the command at the head of the queue, and running it is running what it decodes to. -/
theorem stepRunsDecodedInstruction : Obligations.StepRunsDecodedInstruction := fun s c rest i hp h0 hq hd => by
  rw [step_eq_runCommand hp h0 hq, runCommand_of_decode_ok hd]

/-- A table word has an empty payload, which suits every row at every `CHAR_WIDTH`. -/
theorem decode_of_decodeTableWord {nbits w : Nat} {i : Instr} (h : decodeTableWord nbits w = some i) (cw : Nat) :
    decode cw (tableCommand nbits w) = .ok i := by
  unfold decodeTableWord at h
  split at h
  · split at h
    · next j hj =>
      obtain rfl : j = i := by simpa using h
      exact hj
    · cases h
  · cases h

/-- Settles O7: the placed word is the head of the queue, so O6 is about it. -/
theorem placedWordIsRun : Obligations.PlacedWordIsRun := fun s nbits w i h0 hd =>
  stepRunsDecodedInstruction (s.withFetchWord nbits w) (tableCommand nbits w) s.pending i rfl h0 rfl
    (decode_of_decodeTableWord hd _)

/-- Settles O4: each row of the table decodes to its command (`decode_eq_ok_iff`), and a command that decodes matches
one of the rows, so a command that matches none is rejected. -/
theorem portObeysOpcodeTable : Obligations.PortObeysOpcodeTable := by
  intro s w p rest hr hp hq none' bytes chars v
  have run : ∀ op : Opcode, op.Matches w → p.Suits s.config.charWidth op.payloadKind →
      step s = exec (op.build w p) s := fun op row suits =>
    stepRunsDecodedInstruction s ⟨w, p⟩ rest _ hp hr.no_fault hq ((decode_eq_ok_iff _ _ _).mpr ⟨op, row, suits, rfl⟩)
  have suits_none : p.Suits s.config.charWidth .none ↔ none' := suits_none_iff _ p
  have suits_bytes : p.Suits s.config.charWidth .bytes ↔ bytes := suits_bytes_iff _ p
  have suits_chars : p.Suits s.config.charWidth .chars ↔ chars := suits_chars_iff _ p
  refine ⟨fun row hk => run .construct row (suits_none.mpr hk), fun row hk => run .reset row (suits_none.mpr hk),
    fun row hk => run .add row (suits_bytes.mpr hk), fun row hk => run .finalize row (suits_none.mpr hk),
    fun row hk => run .hashBytes row (suits_bytes.mpr hk), fun row hk => run .hashText row (suits_chars.mpr hk),
    fun row hk => run .readReg row (suits_none.mpr hk),
    fun hconstruct hreset hadd hfinalize hhashBytes hhashText hreadReg => ?_⟩
  rw [step_eq_runCommand hp hr.no_fault hq]
  cases hd : decode s.config.charWidth ⟨w, p⟩ with
  | error e => exact runCommand_of_decode_error hr hd
  | ok i =>
    obtain ⟨op, row, suits, -⟩ := (decode_eq_ok_iff _ _ _).mp hd
    have whole : w &&& 0xFFFFFFFF#32 = w := BitVec.and_allOnes
    exfalso
    cases op with
    | construct => exact hconstruct ⟨row, suits_none.mp suits⟩
    | reset => exact hreset ⟨whole.symm.trans row, suits_none.mp suits⟩
    | add => exact hadd ⟨whole.symm.trans row, suits_bytes.mp suits⟩
    | finalize => exact hfinalize ⟨whole.symm.trans row, suits_none.mp suits⟩
    | hashBytes => exact hhashBytes ⟨row, suits_bytes.mp suits⟩
    | hashText => exact hhashText ⟨row, suits_chars.mp suits⟩
    | readReg => exact hreadReg ⟨row, suits_none.mp suits⟩

end Sys2Proof.Machine
end

section
/-! PROOFS. What an ADD costs in permutations (R71, R132, R247), and the response each command gives (R72). -/

namespace Sys2Proof.Machine

/-! ## The blocks of an ADD -/

theorem length_of_mem_blocks {rate : Nat} {m b : List Byte} (h : b ∈ Reference.blocks rate m) : b.length = rate := by
  obtain ⟨j, hj, rfl⟩ := List.mem_map.mp h
  have whole : (j + 1) * rate ≤ m.length :=
    (Nat.mul_le_mul_right rate (List.mem_range.mp hj)).trans (Nat.div_mul_le_self _ _)
  rw [Nat.add_mul] at whole
  rw [List.length_take, List.length_drop]
  omega

/-- A stream is its complete blocks and its tail, by induction on its bytes: each goes to the tail or completes a
block. -/
theorem blocks_flatten_append_tail {rate : Nat} (hr : 0 < rate) (m : List Byte) :
    (Reference.blocks rate m).flatten ++ Reference.tail rate m = m := by
  induction m using List.reverseRecOn with
  | nil => simp [Reference.blocks, Reference.tail]
  | append_singleton m b ih =>
    by_cases full : m.length % rate + 1 = rate
    · obtain ⟨blocks, tail, -⟩ := blocks_append_byte_full hr m b full
      rw [blocks, tail, List.flatten_append, List.flatten_singleton, List.append_nil, ← List.append_assoc, ih]
    · obtain ⟨blocks, tail⟩ := blocks_append_byte_more hr m b full
      rw [blocks, tail, ← List.append_assoc, ih]

/-- Settles O23: the blocks are those of the stream of buffered bytes and data (`foldl_addByte_stream`). -/
theorem addPermutesOncePerBlock : Obligations.AddPermutesOncePerBlock := by
  intro s t data hr ha h
  rw [exec_of_effect hr (.add ha)] at h
  obtain rfl : (addBody data s).complete .none = t := by simpa using h
  obtain ⟨lanes, -, buffered⟩ := foldl_addByte_stream data s hr.variant_legal hr.bufLen_lt
  have hb := rate_bounds hr
  have count : (Reference.blocks s.rate (s.buffered ++ data)).length = (s.bufLen.toNat + data.length) / s.rate := by
    simp [Reference.blocks, buffered_length hr]
  refine ⟨Reference.blocks s.rate (s.buffered ++ data), count, count, fun b => length_of_mem_blocks, ?_, lanes⟩
  calc (Reference.blocks s.rate (s.buffered ++ data)).flatten ++ (data.foldl addByte s).buffered
      = (Reference.blocks s.rate (s.buffered ++ data)).flatten ++ Reference.tail s.rate (s.buffered ++ data) := by
        rw [buffered]
    _ = s.buffered ++ data := blocks_flatten_append_tail (by omega) _

/-! ## Responses -/

/-- The digest of a ready block: `VARIANT/4` lowercase hex digits (R162, R163). -/
theorem digest_shape {s : State} (hr : s.Ready) :
    s.digest.length = s.variant.toNat / 4 ∧ ∀ b ∈ s.digest, IsHexDigit b := by
  refine ⟨by simp [digest_eq_format hr, Reference.format], fun b hb => ?_⟩
  obtain ⟨d, -, hd⟩ := List.mem_flatMap.mp hb
  exact hex2_isHexDigit d b hd

/-- Settles O32: a fault taken responds with its code, and a command that has its effect with the data of the
effect. -/
theorem responsesHaveTheirShape : Obligations.ResponsesHaveTheirShape := by
  intro i s t h
  obtain ⟨h0, ⟨c, rfl⟩ | ⟨u, d, hr, he, rfl⟩⟩ := exec_next_raised_or_completed h
  · have code := raiseFault_fault_first c s h0
    exact ⟨h0, ⟨c.code, .none⟩, rfl, code.symm, code_le_six c, fun _ => rfl, fun hok => absurd hok (code_ne_zero c)⟩
  · obtain ⟨hf, -, -, hresp, -, -⟩ := he.keeps
    refine ⟨h0, ⟨0x00#8, d⟩, by simp [hresp], by simp [hf, h0], Nat.zero_le _, fun hne => absurd rfl hne, fun _ => ?_⟩
    cases he with
    | construct => rfl
    | reset => rfl
    | add => rfl
    | finalize => exact ⟨_, rfl, by simpa using digest_shape hr⟩
    | hashBytes hv => exact ⟨_, rfl, by simpa using digest_shape (fresh_addBody hr hv _).1⟩
    | hashText hv => exact ⟨_, rfl, by simpa using digest_shape (fresh_addBody hr hv _).1⟩
    | readReg => exact ⟨_, rfl⟩

end Sys2Proof.Machine
end

section
/-! PROOFS. The permutation engine's steps (40_permutation_engine.md R101 to R105), the traversal form of RHO+PI (R108),
the checks of the tables (R103, R106), and the order of the rounds (R100, R107). -/

namespace Sys2Proof.Machine

/-! ## THETA -/

/-- A column's term depends on the parities of its two neighbours alone, so it vanishes where all parities do. -/
theorem thetaTerm_eq_zero {S : Lanes} (even : ∀ x, x < 5 → columnParity S x = 0#64) (x : Nat) :
    thetaTerm S x = 0#64 := by
  rw [thetaTerm, even _ (Nat.mod_lt _ (by decide)), even _ (Nat.mod_lt _ (by decide))]
  decide

/-- Settles O38: each lane by `laneAt_theta`, and with even columns every term vanishes. -/
theorem thetaStep : Obligations.ThetaStep := by
  refine fun S => ⟨fun x y hx hy => ?_, fun even => lanes_ext fun i hi => ?_⟩
  · have column : (5 * y + x) % 5 = x := by omega
    rw [laneAt_theta S (by omega), column]
    rfl
  · rw [laneAt_theta S hi, thetaTerm_eq_zero even, BitVec.xor_zero]

/-! ## RHO+PI (R102, R103) -/

/-- The table of destinations is the formula of R102. -/
theorem dest_eq_formula : ∀ i : Fin 25, dest i = 5 * ((2 * (i % 5) + 3 * (i / 5)) % 5) + i / 5 := by decide

/-- The lane at `(x, y)` goes to `(y, 2x + 3y)` (R102). -/
theorem dest_of_coordinates {x y : Nat} (hx : x < 5) (hy : y < 5) :
    dest (5 * y + x) = 5 * ((2 * x + 3 * y) % 5) + y := by
  have column : (5 * y + x) % 5 = x := by omega
  have row : (5 * y + x) / 5 = y := by omega
  simpa only [column, row] using dest_eq_formula ⟨5 * y + x, by omega⟩

/-- Settles O39: `laneAt_rhoPi_dest` at the formula's destination; index k is reached from the lane `dest_source`
names. -/
theorem rhoPiStep : Obligations.RhoPiStep := by
  refine ⟨fun S x y hx hy => ?_, fun k hk => ?_⟩
  · rw [← dest_of_coordinates hx hy, laneAt_rhoPi_dest S (by omega)]
  · have x_lt : (k % 5 + 3 * (k / 5)) % 5 < 5 := Nat.mod_lt _ (by decide)
    have y_lt : k % 5 < 5 := Nat.mod_lt _ (by decide)
    exact ⟨_, _, x_lt, y_lt, (dest_of_coordinates x_lt y_lt).symm.trans (dest_source hk)⟩

/-! ## The traversal form of RHO+PI (R108)

Its pairs follow lane 1 from destination to destination, through every lane but lane 0. -/

/-- The lane the traversal's step n moves. -/
def traversedLane (n : Nat) : Nat := dest^[n] 1

theorem traversedLane_succ (n : Nat) : traversedLane (n + 1) = dest (traversedLane n) :=
  Function.iterate_succ_apply' dest n 1

theorem pilnTable_zip_rotcTable : pilnTable.zip rotcTable =
    (List.range 24).map fun n => (dest (traversedLane n), rot (traversedLane n)) := by decide

theorem traversedLane_lt {n : Nat} (h : n < 24) : traversedLane n < 25 := by
  have table : ∀ n < 24, traversedLane n < 25 := by decide
  exact table n h

/-- No two steps write the same lane. -/
theorem dest_traversedLane_ne {m n : Nat} (hm : m < n) (hn : n < 24) :
    dest (traversedLane m) ≠ dest (traversedLane n) := by
  have table : ∀ n < 24, ∀ m < n, dest (traversedLane m) ≠ dest (traversedLane n) := by decide
  exact table n hn m hm

/-- No step writes lane 0, which stays where it is. -/
theorem dest_traversedLane_ne_dest_zero {n : Nat} (h : n < 24) : dest (traversedLane n) ≠ dest 0 := by
  have table : ∀ n < 24, dest (traversedLane n) ≠ dest 0 := by decide
  exact table n h

theorem exists_traversedLane {i : Nat} (hi : i < 25) (h0 : i ≠ 0) : ∃ n < 24, traversedLane n = i := by
  have table : ∀ i < 25, i ≠ 0 → ∃ n < 24, traversedLane n = i := by decide
  exact table i hi h0

/-- The lanes and the carried value after the traversal's first n steps. -/
def traversal (S : Lanes) (n : Nat) : Lanes × Lane :=
  (List.range n).foldl (fun st m => traversalStep st (dest (traversedLane m), rot (traversedLane m))) (S, laneAt S 1)

theorem rhoPiTraversal_eq_traversal (S : Lanes) : rhoPiTraversal S = (traversal S 24).1 := by
  rw [rhoPiTraversal, pilnTable_zip_rotcTable, List.foldl_map, traversal]

theorem traversal_succ (S : Lanes) (n : Nat) :
    traversal S (n + 1) = traversalStep (traversal S n) (dest (traversedLane n), rot (traversedLane n)) := by
  rw [traversal, List.range_succ, List.foldl_append, List.foldl_cons, List.foldl_nil, traversal]

theorem laneAt_traversal_succ (S : Lanes) (n : Nat) {i : Nat} (h : i < 25) :
    laneAt (traversal S (n + 1)).1 i =
      if dest (traversedLane n) = i then rotl (traversal S n).2 (rot (traversedLane n))
      else laneAt (traversal S n).1 i := by
  rw [traversal_succ]
  exact laneAt_set _ _ _ h

/-- A lane that is no earlier step's destination is as it was. -/
theorem laneAt_traversal_untouched (S : Lanes) {n i : Nat} (hi : i < 25) (h : ∀ m < n, dest (traversedLane m) ≠ i) :
    laneAt (traversal S n).1 i = laneAt S i := by
  induction n with
  | zero => rfl
  | succ n ih =>
    rw [laneAt_traversal_succ S n hi, if_neg (h n n.lt_succ_self), ih fun m hm => h m (by omega)]

/-- The carried value is the next lane to move, as it was at entry: no earlier step has overwritten it. -/
theorem traversal_carried (S : Lanes) {n : Nat} (h : n ≤ 24) : (traversal S n).2 = laneAt S (traversedLane n) := by
  cases n with
  | zero => rfl
  | succ n =>
    rw [traversal_succ, traversedLane_succ]
    exact laneAt_traversal_untouched S (dest_lt (traversedLane_lt h)) fun m hm => dest_traversedLane_ne hm h

/-- What a step has moved stays where it is. -/
theorem laneAt_traversal_moved (S : Lanes) {m n : Nat} (hm : m < n) (hn : n ≤ 24) :
    laneAt (traversal S n).1 (dest (traversedLane m)) = rotl (laneAt S (traversedLane m)) (rot (traversedLane m)) := by
  induction n with
  | zero => cases hm
  | succ n ih =>
    rw [laneAt_traversal_succ S n (dest_lt (traversedLane_lt (by omega)))]
    obtain rfl | earlier := Nat.eq_or_lt_of_le (Nat.le_of_lt_succ hm)
    · rw [if_pos rfl, traversal_carried S (by omega)]
    · rw [if_neg (dest_traversedLane_ne earlier hn).symm, ih earlier (by omega)]

/-- The traversal takes lane i, rotated, to its destination, as `laneAt_rhoPi_dest` says of the direct form. -/
theorem laneAt_rhoPiTraversal_dest (S : Lanes) {i : Nat} (h : i < 25) :
    laneAt (rhoPiTraversal S) (dest i) = rotl (laneAt S i) (rot i) := by
  rw [rhoPiTraversal_eq_traversal]
  obtain rfl | h0 := eq_or_ne i 0
  · exact laneAt_traversal_untouched S (dest_lt h) fun m hm => dest_traversedLane_ne_dest_zero hm
  · obtain ⟨n, hn, rfl⟩ := exists_traversedLane h h0
    exact laneAt_traversal_moved S hn (Nat.le_refl 24)

/-- Settles O40: every index is the destination of some lane, and both forms take that lane there. -/
theorem rhoPiTraversalAgrees : Obligations.RhoPiTraversalAgrees := by
  refine fun S => lanes_ext fun k hk => ?_
  have source_lt : 5 * (k % 5) + (k % 5 + 3 * (k / 5)) % 5 < 25 := by omega
  rw [← dest_source hk, laneAt_rhoPiTraversal_dest S source_lt, laneAt_rhoPi_dest S source_lt]

/-! ## CHI and IOTA -/

/-- Settles O41, by `laneAt_chi` at the lane's coordinates. -/
theorem chiStep : Obligations.ChiStep := by
  intro S x y hx hy
  have column : (5 * y + x) % 5 = x := by omega
  have row : (5 * y + x) / 5 = y := by omega
  rw [laneAt_chi S (by omega), column, row]

/-- Settles O42, by the two cases of `laneAt_iota`. -/
theorem iotaStep : Obligations.IotaStep := by
  refine fun S r _ => ⟨?_, fun i h1 hi => ?_⟩
  · rw [laneAt_iota r S (by decide), if_pos rfl]
  · rw [laneAt_iota r S hi, if_neg (by omega)]

/-! ## The checks of the tables (R103, R106) -/

/-- The offset of the lane the walk of R103 reaches at step t is the t-th triangular number mod 64. -/
theorem rot_walkAt : ∀ t : Fin 24,
    rot (5 * (walkAt t).2 + (walkAt t).1) = ((t.val + 1) * (t.val + 2) / 2) % 64 := by decide

/-- Settles O43: each table is compared with its check entry by entry. -/
theorem tablesMatchTheirChecks : Obligations.TablesMatchTheirChecks :=
  ⟨dest_eq_formula, rot_walkAt, rfl, by decide +kernel⟩

/-! ## The order of the rounds (R100, R107) -/

/-- A sequence of lane files in which each is the round of the one before gives the lanes after the first n rounds. -/
theorem foldl_keccakRound_of_sequence {f : Nat → Lanes} {n : Nat}
    (h : ∀ r, r < n → f (r + 1) = keccakRound (f r) r) :
    (List.range n).foldl keccakRound (f 0) = f n := by
  induction n with
  | zero => rfl
  | succ n ih =>
    rw [List.range_succ, List.foldl_append, List.foldl_cons, List.foldl_nil, ih fun r hr => h r (by omega),
      h n n.lt_succ_self]

/-- Settles O52: the round by its definition, the 24 rounds by induction on how many have run. -/
theorem roundsRunInOrder : Obligations.RoundsRunInOrder :=
  ⟨fun _ _ => rfl, fun _ rounds => foldl_keccakRound_of_sequence rounds⟩

end Sys2Proof.Machine
end

section
/-! PROOFS. The sponge driver (41_sponge_driver.md R130 to R140): PAD byte by byte, and what CONSTRUCT, RESET, ADD and
FINALIZE leave, alone and in a row. -/

namespace Sys2Proof.Machine

/-! ## PAD (R130) -/

theorem getElem?_pad {rate k : Nat} (m : List Byte) (h : k < rate) :
    (Reference.pad rate m)[k]? = some (Reference.padByte rate m k) := by
  simp [Reference.pad, h]

theorem padByte_message {rate k : Nat} {m : List Byte} (hm : m.length < rate) (hk : k < m.length) :
    Reference.padByte rate m k = m[k] := by
  have inner : k + 1 ≠ rate := by omega
  simp [Reference.padByte, Reference.at0, hk, inner]

/-- The first byte after the message: 0x01, which takes the 0x80 too when it is the last byte of the block. -/
theorem padByte_length (rate : Nat) (m : List Byte) :
    Reference.padByte rate m m.length = if m.length + 1 = rate then 0x81#8 else 0x01#8 := by
  rw [Reference.padByte, if_neg (Nat.lt_irrefl _), if_pos rfl]
  split <;> rfl

theorem padByte_beyond {rate k : Nat} {m : List Byte} (hk : m.length < k) :
    Reference.padByte rate m k = if k + 1 = rate then 0x80#8 else 0x00#8 := by
  rw [Reference.padByte, if_neg (by omega), if_neg (by omega)]
  split <;> rfl

/-- Settles O45: PAD is the padded block byte by byte (`padBlock_eq_pad`), and a byte of it stands in the message, right
after it, or beyond that. -/
theorem padBlockBytes : Obligations.PadBlockBytes := by
  intro v rem _ rate hrem P
  have pad : P = Reference.pad rate rem := padBlock_eq_pad hrem
  have byte : ∀ k < rate, P[k]? = some (Reference.padByte rate rem k) := fun k hk => pad ▸ getElem?_pad rem hk
  refine ⟨?_, fun k hk => ?_, fun room => ⟨?_, ?_⟩, fun full => ?_, fun k hk hlast => ?_⟩
  · simp [pad, Reference.pad]
  · rw [byte k (by omega), padByte_message hrem hk]
  · rw [byte _ hrem, padByte_length, if_neg (by omega)]
  · rw [byte _ (by omega), padByte_beyond (by omega), if_pos (by omega)]
  · rw [show rate - 1 = rem.length by omega, byte _ hrem, padByte_length, if_pos full]
  · rw [byte k (by omega), padByte_beyond hk, if_neg (by omega)]

/-! ## Faults (R201, R202) -/

/-- A fault taken on a ready block, in the words of the statements. -/
theorem exec_faulted_of_trap {i : Instr} {s : State} {c : FaultCode} (hr : s.Ready) (h : Trap i s c) :
    exec i s = .next (s.faulted c.code) := by
  rw [exec_of_trap hr h, raiseFault_eq_faulted c hr.no_fault]

/-- Settles O16: an illegal width is a `Trap` of all three commands. -/
theorem illegalWidthRaisesBadVariant : Obligations.IllegalWidthRaisesBadVariant :=
  ⟨legal_iff, fun _ _ hr hv => ⟨exec_faulted_of_trap hr (.construct hv),
    fun _ => exec_faulted_of_trap hr (.hashBytes hv), fun _ _ => exec_faulted_of_trap hr (.hashText hv)⟩⟩

/-! ## CONSTRUCT and RESET (R135, R136) -/

theorem exec_reset {s : State} (hr : s.Ready) : exec .reset s = .next ((resetBody s).complete .none) :=
  exec_of_effect hr .reset

/-- Settles O20: the effect of CONSTRUCT is ResetBody with the new VARIANT, so with the block's own it is that of
RESET. -/
theorem constructStartsFreshInstance : Obligations.ConstructStartsFreshInstance := by
  intro s v hr
  refine ⟨rfl, fun hv => exec_of_effect hr (.construct hv), fun hv => exec_faulted_of_trap hr (.construct hv), ?_⟩
  rw [exec_of_effect hr (.construct hr.variant_legal), exec_reset hr]

/-- Settles O21: the block is ready after a RESET, and ResetBody leaves what it has cleared as it is. -/
theorem resetClearsInstance : Obligations.ResetClearsInstance := by
  refine ⟨rfl, fun s hr => ⟨(resetBody s).complete .none, exec_reset hr, rfl, ?_⟩⟩
  have hr' : ((resetBody s).complete .none).Ready := complete_ready (Effect.reset.ready hr) _
  exact exec_reset hr'

/-! ## ADD (R137, R139) -/

theorem exec_add {s : State} (hr : s.Ready) (ha : s.phase = .absorbing) (data : List Byte) :
    exec (.add data) s = .next ((addBody data s).complete .none) :=
  exec_of_effect hr (.add ha)

@[simp] theorem addBody_nil (s : State) : addBody [] s = s := by
  simp [addBody]

/-- AddBody writes four registers: every other field has its own law (`addBody_variant` and the like). -/
theorem addBody_eq_update (data : List Byte) (s : State) :
    addBody data s = { s with
      lanes := (data.foldl addByte s).lanes
      buf := (data.foldl addByte s).buf
      bufLen := (data.foldl addByte s).bufLen
      byteCount := s.byteCount + BitVec.ofNat 64 data.length } := by
  have eta : addBody data s = { addBody data s with cmdIndex := (addBody data s).cmdIndex } := rfl
  rw [eta]
  simp

/-- Settles O22: the effect of ADD writes four registers, and its loop leaves in them the complete blocks of the stream
and its tail (`foldl_addByte_stream`). -/
theorem addAbsorbsCompleteBlocks : Obligations.AddAbsorbsCompleteBlocks := by
  intro s data hr rate stream
  refine ⟨rfl, fun hp => exec_faulted_of_trap hr (.add hp), fun ha => ?_, fun ha => ?_⟩
  · obtain ⟨lanes, bufLen, buffered⟩ := foldl_addByte_stream data s hr.variant_legal hr.bufLen_lt
    have length : (s.buffered ++ data).length = s.bufLen.toNat + data.length := by
      rw [List.length_append, buffered_length hr]
    rw [length] at bufLen
    have register : (data.foldl addByte s).bufLen = BitVec.ofNat 8 ((s.bufLen.toNat + data.length) % s.rate) := by
      rw [← bufLen, BitVec.ofNat_toNat, BitVec.setWidth_eq]
    refine ⟨(data.foldl addByte s).buf, ?_, ?_⟩
    · rw [exec_add hr ha, addBody_eq_update, lanes, register]
      rfl
    · rw [State.buffered, bufLen] at buffered
      exact buffered
  · rw [exec_add hr ha, addBody_nil, complete_eq_responded]

/-- Settles O24: the second ADD commutes with the response of the first (`addBody_complete`), and two AddBodys in a row
are the one of the concatenation (`addBody_append`). -/
theorem addSplitIndependence : Obligations.AddSplitIndependence := by
  intro s a b hr ha
  have hr' : ((addBody a s).complete .none).Ready := complete_ready (addBody_ready hr ha a) _
  have ha' : ((addBody a s).complete .none).phase = .absorbing := by simp [ha]
  have second : addBody b ((addBody a s).complete .none) = (addBody (a ++ b) s).complete .none := by
    rw [addBody_complete, addBody_append]
  refine ⟨_, _, _, exec_add hr ha a, exec_add hr' ha' b, exec_add hr ha (a ++ b), ?_⟩
  rw [second]
  exact ⟨rfl, rfl, rfl, rfl⟩

/-! ## FINALIZE (R138) -/

theorem exec_finalize {s : State} (hr : s.Ready) (ha : s.phase = .absorbing) :
    exec .finalize s = .next ((finalizeBody s).complete (.hex s.digest)) :=
  exec_of_effect hr (.finalize ha)

/-- Settles O25, by the two modes: the digest is that of the padded remainder absorbed, and only ONE_SHOT keeps the
lanes it comes from. -/
theorem finalizeReturnsDigest : Obligations.FinalizeReturnsDigest := by
  intro s hr rate final h
  have lanes : s.finalLanes = final := finalLanes_eq_absorb hr
  have digest : s.digest = h := by rw [digest_eq_format hr, lanes]
  refine ⟨rfl, fun hp => exec_faulted_of_trap hr (.finalize hp), fun ha hm => ?_, fun ha hm => ?_⟩
  · rw [exec_finalize hr ha, finalizeBody_oneShot s hm, digest, lanes, complete_eq_responded]
  · rw [exec_finalize hr ha, finalizeBody_resumable s hm, digest, complete_eq_responded]

/-! ## A stream of ADDs (R139, R140) -/

/-- ADDs in a row hand on a block that finalizes as after the one ADD of the concatenated payloads, by induction on the
payloads. -/
theorem execAll_adds (ms : List (List Byte)) {s : State} (hr : s.Ready) (ha : s.phase = .absorbing)
    (is : List Instr) :
    ∃ t : State, execAll (ms.map Instr.add ++ is) s = execAll is t ∧ t.Ready ∧ t.phase = .absorbing ∧
      t.digest = (addBody ms.flatten s).digest ∧ t.responses.length = s.responses.length + ms.length := by
  induction ms generalizing s with
  | nil => exact ⟨s, rfl, hr, ha, by simp, rfl⟩
  | cons m ms ih =>
    have hr' : ((addBody m s).complete .none).Ready := complete_ready (addBody_ready hr ha m) _
    obtain ⟨t, run, ready, absorbing, digest, count⟩ := ih hr' (by simp [ha])
    refine ⟨t, ?_, ready, absorbing, ?_, ?_⟩
    · rw [List.map_cons, List.cons_append, execAll_add hr ha, run]
    · rw [digest, addBody_complete, complete_digest, List.flatten_cons, addBody_append]
    · rw [count, complete_responses, addBody_responses, List.length_append, List.length_singleton, List.length_cons]
      omega

/-- Settles O31: after CONSTRUCT the ADDs act as one (`execAll_adds`), and one ADD on the fresh block gives the digest
of `Keccak_V` (`fresh_addBody`). -/
theorem streamHashesToKeccak : Obligations.StreamHashesToKeccak := by
  intro s v ms hr hv
  have fresh : ((resetBody { s with variant := v }).complete .none).Ready := complete_ready (fresh_ready hr hv) _
  obtain ⟨t, run, ready, absorbing, digest, count⟩ := execAll_adds ms fresh rfl [.finalize]
  have keccak : t.digest = Reference.keccak v ms.flatten := by
    obtain ⟨-, -, -, -, -, whole⟩ := fresh_addBody hr hv ms.flatten
    rw [digest, addBody_complete, complete_digest, whole]
  refine ⟨(finalizeBody t).complete (.hex t.digest), ?_, ?_, ?_⟩
  · rw [execAll_cons_of_effect hr (.construct hv), run, execAll_cons_of_effect ready (.finalize absorbing), execAll]
  · simp [keccak]
  · simp [count]
    omega

end Sys2Proof.Machine
end

section
/-! PROOFS. The digest formatter (42_digest_formatter.md R160 to R168): hex characters and text bytes, and what the
entry points HASH_BYTES and HASH_TEXT leave and return. -/

namespace Sys2Proof.Machine

/-! ## FORMAT_DIGEST (R162, R163) -/

/-- Every character of a formatted digest is one of the two of some byte. -/
theorem formatDigest_isHexDigit (n : Nat) (T : Lanes) : ∀ c ∈ formatDigest n T, IsHexDigit c := by
  intro c hc
  obtain ⟨b, -, hb⟩ := List.mem_flatMap.mp hc
  exact hex2_isHexDigit b c hb

/-- Settles O47: the two characters of a byte (`hex2_eq_hexDigits`), and the string they make for each width. -/
theorem formatDigestCharacters : Obligations.FormatDigestCharacters :=
  ⟨hex2_eq_hexDigits, fun n T => ⟨formatDigest_length n T, formatDigest_isHexDigit n T⟩,
    fun _ T hv => formatDigest_eq_format hv T⟩

/-! ## TEXT_TO_BYTES (R165) -/

/-- Narrowing codes of at most 0xFF keeps every value. -/
theorem map_toNat_map_ofNat {text : List CharCode} (h : ∀ c ∈ text, c ≤ 0xFF) :
    (text.map (BitVec.ofNat 8)).map BitVec.toNat = text := by
  have value : ∀ c ∈ text, (BitVec.ofNat 8 c).toNat = c := fun c hc => by
    rw [BitVec.toNat_ofNat]
    exact Nat.mod_eq_of_lt (Nat.lt_succ_of_le (h c hc))
  rw [List.map_map]
  exact (List.map_congr_left value).trans (List.map_id' text)

/-- Settles O29: one code out of range gives no bytes, and codes in range keep their values (`map_toNat_map_ofNat`). -/
theorem textNarrowsToBytes : Obligations.TextNarrowsToBytes :=
  fun isHex text => ⟨(textToBytes_eq_none_iff isHex text).mpr,
    fun h => ⟨text.map (BitVec.ofNat 8), textToBytes_of_le h isHex, map_toNat_map_ofNat h⟩⟩

/-! ## HASH_BYTES (R166, R168) -/

/-- A fresh block of width `v` that has taken `data` (R166), field by field: the lanes hold the complete blocks of the
data and BUF the tail. -/
theorem fresh_addBody_eq_update {s : State} (hr : s.Ready) {v : VBits} (hv : LegalWidth v) (data : List Byte) :
    ∃ buf' : Buffer,
      addBody data (resetBody { s with variant := v }) = { s with
        lanes := Reference.absorbAll (rateOf v) zeroLanes data
        variant := v
        buf := buf'
        bufLen := BitVec.ofNat 8 (data.length % rateOf v)
        byteCount := BitVec.ofNat 64 data.length
        phase := .absorbing } ∧
      buf'.toList.take (data.length % rateOf v) = Reference.tail (rateOf v) data := by
  obtain ⟨-, lanes, bufLen, buffered, -, -⟩ := fresh_addBody hr hv data
  have register : (addBody data (resetBody { s with variant := v })).bufLen =
      BitVec.ofNat 8 (data.length % rateOf v) := by
    rw [← bufLen, BitVec.ofNat_toNat, BitVec.setWidth_eq]
  refine ⟨(addBody data (resetBody { s with variant := v })).buf, ?_, ?_⟩
  · rw [addBody_lanes] at lanes
    rw [addBody_bufLen] at register
    rw [addBody_eq_update, lanes, register]
    simp [resetBody]
  · rw [State.buffered, bufLen] at buffered
    exact buffered

/-- HASH_BYTES of a legal width finalizes the fresh block that has taken the data, and responds with `Keccak_V`. -/
theorem exec_hashBytes {s : State} (hr : s.Ready) {v : VBits} (hv : LegalWidth v) (data : List Byte) :
    exec (.hashBytes v data) s =
      .next ((finalizeBody (addBody data (resetBody { s with variant := v }))).complete
        (.hex (Reference.keccak v data))) := by
  obtain ⟨-, -, -, -, -, digest⟩ := fresh_addBody hr hv data
  rw [exec_of_effect hr (.hashBytes hv), digest]

/-- Settles O27, by the two modes: FinalizeBody keeps the final lanes of `Keccak_V`, or leaves the stream the ADD left
(`fresh_addBody_eq_update`). -/
theorem hashBytesReturnsKeccak : Obligations.HashBytesReturnsKeccak := by
  intro s v data hr rate
  refine ⟨rfl, fun hv => exec_faulted_of_trap hr (.hashBytes hv), fun hv => ?_⟩
  obtain ⟨buf', update, tail⟩ := fresh_addBody_eq_update hr hv data
  obtain ⟨-, -, -, -, final, -⟩ := fresh_addBody hr hv data
  refine ⟨buf', fun hm => ?_, fun hm => ?_, tail⟩
  · rw [exec_hashBytes hr hv, finalizeBody_oneShot _ (by simpa using hm), final, update]
    rfl
  · rw [exec_hashBytes hr hv, finalizeBody_resumable _ (by simpa using hm), update]
    rfl

/-- The digest HASH_BYTES responds with depends on the width and the data alone. -/
theorem exec_hashBytes_responses {s : State} (hr : s.Ready) {v : VBits} (hv : LegalWidth v) (data : List Byte) :
    ∃ t, exec (.hashBytes v data) s = .next t ∧
      t.responses = s.responses ++ [{ status := 0x00#8, data := .hex (Reference.keccak v data) }] :=
  ⟨_, exec_hashBytes hr hv data, by simp⟩

/-- Settles O51: from both states the digest is `Keccak_V` of the data. -/
theorem digestIgnoresEarlierState : Obligations.DigestIgnoresEarlierState := by
  intro s s' v data hr hr' hv
  obtain ⟨t, run, response⟩ := exec_hashBytes_responses hr hv data
  obtain ⟨t', run', response'⟩ := exec_hashBytes_responses hr' hv data
  exact ⟨t, t', _, run, run', response, response'⟩

/-! ## HASH_TEXT (R167) -/

/-- Settles O28: codes in range are the bytes of the same values, and with them HASH_TEXT has the effect of
HASH_BYTES. -/
theorem hashTextHashesCharacterBytes : Obligations.HashTextHashesCharacterBytes := by
  intro s v isHex text hr
  have flag : encodeIsHex isHex = if isHex then 0x100#32 else 0#32 := by cases isHex <;> rfl
  refine ⟨?_, fun hv => exec_faulted_of_trap hr (.hashText hv), fun hv wide => ?_, fun hv narrow => ?_⟩
  · rw [← flag]
    rfl
  · exact exec_faulted_of_trap hr (.hashTextRange hv ((textToBytes_eq_none_iff isHex text).mpr wide))
  · obtain ⟨t, run, response⟩ := exec_hashBytes_responses hr hv (text.map (BitVec.ofNat 8))
    refine ⟨t, ?_, run, response⟩
    rw [exec_of_effect hr (.hashText hv (textToBytes_of_le narrow isHex)), ← run, exec_of_effect hr (.hashBytes hv)]

/-! ## HASH_BYTES as three commands (R166, D10) -/

/-- FinalizeBody reads and writes no bookkeeping of the port. -/
theorem finalizeBody_complete (s : State) (d : ResponseData) :
    finalizeBody (s.complete d) = (finalizeBody s).complete d := by
  cases hm : s.config.finalizeMode with
  | oneShot => rw [finalizeBody_oneShot s hm, finalizeBody_oneShot (s.complete d) hm]; rfl
  | resumable => rw [finalizeBody_resumable s hm, finalizeBody_resumable (s.complete d) hm]

/-- CONSTRUCT, ADD and FINALIZE in a row do what HASH_BYTES does, and give two responses more before it. -/
theorem execAll_construct_add_finalize {s : State} (hr : s.Ready) {v : VBits} (hv : LegalWidth v)
    (data : List Byte) :
    execAll [.construct v, .add data, .finalize] s =
      .next ((((finalizeBody (addBody data (resetBody { s with variant := v }))).complete .none).complete
        .none).complete (.hex (Reference.keccak v data))) := by
  obtain ⟨hu, -, -, -, -, digest⟩ := fresh_addBody hr hv data
  have fresh : ((resetBody { s with variant := v }).complete .none).Ready := complete_ready (fresh_ready hr hv) _
  rw [execAll_cons_of_effect hr (.construct hv), execAll_add fresh rfl, addBody_complete,
    execAll_cons_of_effect (complete_ready (complete_ready hu _) _) (.finalize (by simp)), execAll,
    finalizeBody_complete, finalizeBody_complete, complete_digest, complete_digest, digest]

/-- Settles O30: both leave what finalizing the fresh block leaves, and differ in the bookkeeping of the port. -/
theorem hashBytesIsConstructAddFinalize : Obligations.HashBytesIsConstructAddFinalize := by
  intro s v data hr hv
  refine ⟨_, _, .hex (Reference.keccak v data), exec_hashBytes hr hv data, execAll_construct_add_finalize hr hv data,
    by simp, ?_⟩
  simp [State.complete]

end Sys2Proof.Machine
end

section
/-! PROOFS. The diagnostic register read (43_diagnostic_read.md R185): the register map's lane numbers and reserved
numbers, and what READ_REG answers for each. -/

namespace Sys2Proof.Machine

/-- The numbers 0x20 to 0x38 are the lanes 0 to 24 in order (R185). -/
theorem registerOf_lane : ∀ k : Fin 25, registerOf (BitVec.ofNat 8 (0x20 + k)) = some (.lane k) := by decide

/-- No register has a number between DIGEST_BYTES and the lanes, or beyond the lanes (R185). -/
theorem registerOf_reserved {n : RegNum} (h : (0x06 ≤ n.toNat ∧ n.toNat ≤ 0x1F) ∨ 0x39 ≤ n.toNat) :
    registerOf n = none :=
  (registerOf_eq_none_iff n).mpr (by omega)

theorem readRegister_lane (s : State) (k : Fin 25) : s.readRegister (.lane k) = s.lanes[k] :=
  laneAt_eq_getElem s.lanes k.isLt

theorem exec_readReg_lane {s : State} (hr : s.Ready) (k : Fin 25) :
    exec (.readReg (BitVec.ofNat 8 (0x20 + k))) s = .next (s.responded (.value s.lanes[k])) := by
  rw [exec_readReg_mapped hr (registerOf_lane k), readRegister_lane]

/-- Settles O33: a mapped number is an effect that leaves the state as it is (`exec_readReg_mapped`), and a reserved
one is a `Trap`. -/
theorem readRegReturnsRegister : Obligations.ReadRegReturnsRegister := by
  intro s hr
  refine ⟨fun _ => rfl, ?status, ?variant, ?rate, ?bufLen, ?byteCount, ?digestBytes, exec_readReg_lane hr,
    fun _ reserved => exec_faulted_of_trap hr (.readReg (registerOf_reserved reserved))⟩
  case status => exact exec_readReg_mapped hr (r := .status) rfl
  case variant => exact exec_readReg_mapped hr (r := .variant) rfl
  case rate => exact exec_readReg_mapped hr (r := .rate) rfl
  case bufLen => exact exec_readReg_mapped hr (r := .bufLen) rfl
  case byteCount => exact exec_readReg_mapped hr (r := .byteCount) rfl
  case digestBytes => exact exec_readReg_mapped hr (r := .digestBytes) rfl

end Sys2Proof.Machine
end

section
/-! PROOFS. Faults and the halt (60_exceptions.md R200 to R217): what a halted and an idle block do, that a fault
changes FAULT and the responses alone, which one a command reports, and the spent and the breached block. -/

namespace Sys2Proof.Machine

/-! ## The halted and the idle block (R204, R205, R217) -/

theorem step_halted {s : State} (hp : s.powerOn = none) (hf : s.fault ≠ 0x00#8) :
    step s = .fault (.halted s.fault) := by
  simp [step, advance, hp, hf]

/-- Settles O8: the step looks at FAULT before any command, and so does every meaning (`exec_halted`). -/
theorem haltedBlockAcceptsNothing : Obligations.HaltedBlockAcceptsNothing :=
  fun _ hf => ⟨fun hp => step_halted hp hf, fun i => exec_halted i hf⟩

/-- Settles O9: with an empty queue there is no next command, and the step is `idle`. -/
theorem idleBlockKeepsState : Obligations.IdleBlockKeepsState := fun s hp h0 hq => by
  simp [step, advance, State.nextCommand, idle, hp, h0, hq]

/-! ## A fault changes FAULT and the responses alone (R204) -/

theorem raiseFault_eq_faulted_fault (c : FaultCode) {s : State} (h0 : s.fault = 0x00#8) :
    s.raiseFault c = s.faulted (s.raiseFault c).fault := by
  rw [raiseFault_fault_first c s h0, raiseFault_eq_faulted c h0]

/-- A command that has its effect leaves FAULT at 0x00. -/
theorem Effect.complete_fault_eq_zero {i : Instr} {s u : State} {d : ResponseData} (he : Effect i s u d)
    (hr : s.Ready) : (u.complete d).fault = 0x00#8 :=
  (he.ready hr).no_fault

/-- Settles O15, by the kinds of an answer: only a fault taken leaves a code in FAULT, and the state it leaves is
halted with no power-on reset to come. -/
theorem faultsArePrecise : Obligations.FaultsArePrecise := by
  refine ⟨fun i s t h hf => ?_, fun s t hp h hf => ?_⟩
  · obtain ⟨h0, ⟨c, rfl⟩ | ⟨u, d, hr, he, rfl⟩⟩ := exec_next_raised_or_completed h
    · exact raiseFault_eq_faulted_fault c h0
    · exact absurd (he.complete_fault_eq_zero hr) hf
  · cases stepKind_of_step h with
    | powerOn hp' => simp [hp] at hp'
    | idle _ h0 => exact absurd h0 hf
    | raised c _ h0 => exact ⟨raiseFault_eq_faulted_fault c h0, step_halted hp hf⟩
    | completed _ _ hr he => exact absurd (he.complete_fault_eq_zero hr) hf

/-! ## The spent block (R202) -/

theorem exec_accepted_of_effect {i : Instr} {s u : State} {d : ResponseData} (hr : s.Ready) (he : Effect i s u d) :
    ∃ t, exec i s = .next t ∧ t.fault = 0x00#8 :=
  ⟨_, exec_of_effect hr he, he.complete_fault_eq_zero hr⟩

/-- FinalizeBody leaves PHASE spent in ONE_SHOT mode alone (R138). -/
theorem oneShot_of_finalizeBody_spent {s : State} (ha : s.phase = .absorbing) (hs : (finalizeBody s).phase = .spent) :
    s.config.finalizeMode = .oneShot := by
  cases hm : s.config.finalizeMode with
  | oneShot => rfl
  | resumable => simp [finalizeBody_resumable s hm, ha] at hs

/-- An effect that leaves PHASE spent runs FinalizeBody, in ONE_SHOT mode. -/
theorem Effect.spends {i : Instr} {s u : State} {d : ResponseData} (he : Effect i s u d)
    (ha : s.phase = .absorbing) (hs : u.phase = .spent) :
    s.config.finalizeMode = .oneShot ∧
      (i = .finalize ∨ (∃ v d, i = .hashBytes v d) ∨ ∃ v h x, i = .hashText v h x) := by
  cases he with
  | construct | reset => simp at hs
  | add | readReg => simp [ha] at hs
  | finalize => exact ⟨oneShot_of_finalizeBody_spent ha hs, .inl rfl⟩
  | hashBytes => exact ⟨by simpa using oneShot_of_finalizeBody_spent (by simp) hs, .inr (.inl ⟨_, _, rfl⟩)⟩
  | hashText => exact ⟨by simpa using oneShot_of_finalizeBody_spent (by simp) hs, .inr (.inr ⟨_, _, _, rfl⟩)⟩

/-- A number of the register map is some register's (R185). -/
theorem registerOf_mapped {n : RegNum} (h : n.toNat ≤ 0x05 ∨ (0x20 ≤ n.toNat ∧ n.toNat ≤ 0x38)) :
    ∃ r, registerOf n = some r :=
  Option.ne_none_iff_exists'.mp fun hn => (registerOf_eq_none_iff n).mp hn h

/-- Settles O17: on the spent block ADD and FINALIZE trap and the other commands have their effect, and PHASE becomes
spent by an effect that runs FinalizeBody (`Effect.spends`), since a fault keeps it. -/
theorem spentInstanceRefusesInput : Obligations.SpentInstanceRefusesInput := by
  refine ⟨fun s hr hs => ⟨hr.spent_oneShot hs, ?add, ?finalize, ?reset, ?construct, ?hashBytes, ?hashText, ?readReg⟩,
    fun i s t h ha hs => ?spends⟩
  case add => exact fun d => exec_faulted_of_trap hr (.add hs)
  case finalize => exact exec_faulted_of_trap hr (.finalize hs)
  case reset => exact exec_accepted_of_effect hr .reset
  case construct => exact fun v hv => exec_accepted_of_effect hr (.construct hv)
  case hashBytes => exact fun v d hv => exec_accepted_of_effect hr (.hashBytes hv)
  case hashText => exact fun v h x hv hx => exec_accepted_of_effect hr (.hashText hv (textToBytes_of_le hx h))
  case readReg =>
    intro n hn
    obtain ⟨r, mapped⟩ := registerOf_mapped hn
    exact exec_accepted_of_effect hr (.readReg mapped)
  case spends =>
    obtain ⟨-, ⟨c, rfl⟩ | ⟨u, d, -, he, rfl⟩⟩ := exec_next_raised_or_completed h
    · simp [ha] at hs
    · exact he.spends ha hs

/-! ## Which fault a command reports (R203) -/

/-- Settles O18: a rejected command takes its fault in `runCommand`, and every other case is a `Trap` of the decoded
instruction. -/
theorem faultPriority : Obligations.FaultPriority := by
  intro s c rest hr hp hq
  have trapped : ∀ {i : Instr} {f : FaultCode}, decode s.config.charWidth c = .ok i → Trap i s f →
      step s = .next (s.faulted f.code) := fun hd ht => by
    rw [stepRunsDecodedInstruction s c rest _ hp hr.no_fault hq hd, exec_faulted_of_trap hr ht]
  refine ⟨fun e hd => ?_, fun v hd hv => trapped hd (.construct hv), fun v d hd hv => trapped hd (.hashBytes hv),
    fun v h x hd hv => trapped hd (.hashText hv), fun n hd hn => trapped hd (.readReg (registerOf_reserved hn)),
    fun d hd hs => trapped hd (.add hs), fun hd hs => trapped hd (.finalize hs),
    fun v h x hd hv hx => trapped hd (.hashTextRange hv ((textToBytes_eq_none_iff h x).mpr hx))⟩
  rw [step_eq_runCommand hp hr.no_fault hq, runCommand_of_decode_error hr hd]

/-! ## A breach of R36 (R207) -/

theorem State.Inv.ready {s : State} (hs : s.Inv) (h0 : s.fault = 0x00#8) : s.Ready :=
  ⟨h0, hs.variant_legal, hs.bufLen_lt, hs.spent_oneShot, hs.spent_empty⟩

theorem invariantHolds_eq_false_of_not_ready {s : State} (h0 : s.fault = 0x00#8) (hr : ¬ s.Ready) :
    s.invariantHolds = false :=
  Bool.eq_false_iff.mpr fun hi => hr ((ready_iff s).mpr ⟨h0, hi⟩)

/-- No fault of R203's list is INTERNAL_INVARIANT. -/
theorem Trap.code_ne_internalInvariant {i : Instr} {s : State} {c : FaultCode} (h : Trap i s c) : c.code ≠ 0x06#8 := by
  cases h <;> decide

/-- A ready block never takes INTERNAL_INVARIANT: it takes a fault of R203's list or none. -/
theorem exec_fault_ne_internalInvariant {i : Instr} {s t : State} (hr : s.Ready) (h : exec i s = .next t) :
    t.fault ≠ 0x06#8 := by
  obtain ⟨c, hc⟩ | ⟨u, d, he⟩ := trap_or_effect i s
  · obtain rfl : s.faulted c.code = t := by simpa [exec_faulted_of_trap hr hc] using h
    exact hc.code_ne_internalInvariant
  · obtain rfl : u.complete d = t := by simpa [exec_of_effect hr he] using h
    rw [he.complete_fault_eq_zero hr]
    decide

/-- Settles O19: every meaning checks R36 first (`exec_breach`), and from a state that keeps it a step is idle, rejects
a command, or runs an instruction on a ready block. -/
theorem breachRaisesInternalInvariant : Obligations.BreachRaisesInternalInvariant := by
  refine ⟨fun s i h0 hr => ?_, fun s t hs hp h => ?_⟩
  · rw [exec_breach i h0 (invariantHolds_eq_false_of_not_ready h0 hr), raiseFault_eq_faulted _ h0]
    rfl
  · obtain ⟨cmds, hp', -⟩ | ⟨-, h0, ⟨-, rfl⟩ | ⟨c, rest, hq, ⟨i, -, hx⟩ | ⟨e, hd, -⟩⟩⟩ := step_next h
    · simp [hp] at hp'
    · simp [h0]
    · exact exec_fault_ne_internalInvariant (hs.ready h0) hx
    · rw [step_eq_runCommand hp h0 hq, runCommand_of_decode_error (hs.ready h0) hd] at h
      obtain rfl : s.faulted 0x01#8 = t := by simpa using h
      exact (by decide : (0x01#8 : Byte) ≠ 0x06#8)

end Sys2Proof.Machine
end

section
/-! PROOFS. Power-on reset (70_reset_and_hazards.md R240), and what a run of commands that ends without a fault has
answered (R245). -/

namespace Sys2Proof.Machine

/-! ## Power-on reset (R240) -/

theorem step_powerOn {s : State} {cmds : List Command} (hp : s.powerOn = some cmds) :
    step s = .next (State.afterPowerOn s.config cmds) := by
  simp [step, advance, hp]

/-- No instruction takes the stop of a halted block on a ready one: it takes a fault of R203's list or has its
effect, and both answer a next state. -/
theorem exec_ne_fault_of_ready {s : State} (hr : s.Ready) (i : Instr) (f : Fault) : exec i s ≠ .fault f := by
  obtain ⟨c, hc⟩ | ⟨u, d, he⟩ := trap_or_effect i s
  · simp [exec_of_trap hr hc]
  · simp [exec_of_effect hr he]

/-- Settles O10: a faulted state steps only by power-on reset (O11), and the state it leads to has R35's values and is
ready, whatever the state before it was. -/
theorem powerOnResetsBlock : Obligations.PowerOnResetsBlock := by
  refine ⟨fun s t hf h => (onlyPowerOnClearsFault s t h).1 hf, fun s cmds hp => ⟨_, step_powerOn hp, ?_⟩⟩
  exact ⟨fun i _ => laneAt_zeroLanes i, rfl, rfl, rfl, rfl, rfl, rfl, rfl, afterPowerOn_statusWord _ _,
    exec_ne_fault_of_ready (afterPowerOn_ready _ _)⟩

/-! ## Runs of commands (R245) -/

/-- A run of one step more that reaches a state is a step and a run from the state it leads to. -/
theorem runSteps_succ_next {k : Nat} {s t : State} (h : runSteps (k + 1) s = .next t) :
    ∃ u, step s = .next u ∧ runSteps k u = .next t := by
  rw [runSteps] at h
  cases hs : step s with
  | next u => exact ⟨u, rfl, by simpa [hs] using h⟩
  | fault | refused => simp [hs] at h

/-- No step asks for a power-on reset: that is the host's alone. -/
theorem step_keeps_powerOn_none {s u : State} (hp : s.powerOn = none) (h : step s = .next u) : u.powerOn = none := by
  cases stepKind_of_step h with
  | powerOn => rfl
  | idle | raised => exact hp
  | completed _ _ _ he =>
    obtain ⟨-, -, -, -, -, hpow⟩ := he.keeps
    exact hpow.trans hp

/-- A run with no power-on reset to come that ends without a fault began without one: a halted block has no step. -/
theorem fault_eq_zero_of_runSteps {k : Nat} {s t : State} (hp : s.powerOn = none) (h : runSteps k s = .next t)
    (h0 : t.fault = 0x00#8) : s.fault = 0x00#8 := by
  cases k with
  | zero =>
    obtain rfl : s = t := by simpa [runSteps] using h
    exact h0
  | succ k =>
    obtain ⟨u, hs, -⟩ := runSteps_succ_next h
    by_contra hf
    exact (onlyPowerOnClearsFault s u hs).1 hf hp

/-- A step that takes a command and leaves no fault has answered it once, with OK, and taken it from the queue. -/
theorem step_answers_command {s u : State} {c : Command} {rest : List Command} (hp : s.powerOn = none)
    (hq : s.pending = c :: rest) (h : step s = .next u) (h0 : u.fault = 0x00#8) :
    u.pending = rest ∧ ∃ r : Response, r.status = 0x00#8 ∧ u.responses = s.responses ++ [r] := by
  cases stepKind_of_step h with
  | powerOn hp' => simp [hp] at hp'
  | idle _ _ hq' => simp [hq] at hq'
  | raised c _ hs => simp [raiseFault_fault_first, hs, code_ne_zero] at h0
  | @completed _ _ d _ _ _ he =>
    obtain ⟨-, -, hpend, hresp, -, -⟩ := he.keeps
    exact ⟨by simp [hpend, hq], { status := 0x00#8, data := d }, rfl, by simp [hresp]⟩

/-- By induction on the commands: one that another run follows has left no fault (`fault_eq_zero_of_runSteps`), so its
step answered it. -/
theorem runSteps_answers_commands {cmds rest : List Command} {s t : State} (hp : s.powerOn = none)
    (hq : s.pending = cmds ++ rest) (h : runSteps cmds.length s = .next t) (h0 : t.fault = 0x00#8) :
    t.pending = rest ∧ ∃ rs : List Response, t.responses = s.responses ++ rs ∧ rs.length = cmds.length ∧
      ∀ r ∈ rs, r.status = 0x00#8 := by
  induction cmds generalizing s with
  | nil =>
    obtain rfl : s = t := by simpa [runSteps] using h
    exact ⟨hq, [], by simp⟩
  | cons c cmds ih =>
    obtain ⟨u, hs, hrun⟩ := runSteps_succ_next h
    have pow : u.powerOn = none := step_keeps_powerOn_none hp hs
    obtain ⟨hpend, r, hr, hresp⟩ := step_answers_command hp hq hs (fault_eq_zero_of_runSteps pow hrun h0)
    obtain ⟨hrest, rs, hrs, hlen, hok⟩ := ih pow hpend hrun
    exact ⟨hrest, r :: rs, by simp [hrs, hresp], by simp [hlen], by simpa [hr] using hok⟩

/-- Settles O14: the run from power-on reset begins with no response and only these commands in its queue. -/
theorem normalEndHasAllResponses : Obligations.NormalEndHasAllResponses := by
  refine ⟨fun s t cmds rest => runSteps_answers_commands, fun c cmds t h h0 => ?_⟩
  obtain ⟨hrest, rs, hrs, hlen, -⟩ :=
    runSteps_answers_commands (s := State.afterPowerOn c cmds) (rest := []) rfl (List.append_nil cmds).symm h h0
  exact ⟨⟨hrest, h0⟩, by simpa [hrs, State.afterPowerOn] using hlen⟩

end Sys2Proof.Machine
end
